-- ==== Sys2Proof/Word.lean ====
section
/-! DEFINITION. The word type (spec/00_scope.md R5, R6) and the byte of the ports and the image (R13, R131). -/

namespace Sys2Proof

/-- R6: every value is a 32-bit unsigned Word; `+` and `*` on it wrap modulo 2^32, `<` and `≤` are unsigned (R14). -/
abbrev Word := BitVec 32

/-- A byte of the output port (R13) or of the program image (R41). -/
abbrev Byte := BitVec 8

/-- The all-ones word 0xFFFFFFFF, the end-of-input value of R107. -/
abbrev allOnes : Word := 0xFFFFFFFF#32

end Sys2Proof
end

