-- ==== Sys2Proof/Config.lean ====
section
/-! DEFINITION. What one implementation fixes: the open parameters of spec/00_scope.md R5, and the host's exit codes (R118). -/

namespace Sys2Proof

/-- The open resource limits of R5 (92_eei_decisions.md D3). The spec makes them arguments of the model: they stand in
`Machine.State.config`, so that a claim about every state is a claim for every value of them (log 3). -/
structure Config where
  /-- `MAX_TOTAL_WORDS`; `none` is the spec's `∞` (R16). -/
  maxTotalWords : Option Nat
  /-- `MAX_SLOTS`, at least 1 and at most 2^32 (`Config.wf`). -/
  maxSlots : Nat
  deriving DecidableEq, Repr

namespace Config

/-- The range R5 gives `MAX_SLOTS`. -/
abbrev wf (cfg : Config) : Prop := 1 ≤ cfg.maxSlots ∧ cfg.maxSlots ≤ 2 ^ 32

/-- The defaults of R5: `MAX_TOTAL_WORDS = ∞`, `MAX_SLOTS = 2^32`. -/
def default : Config := { maxTotalWords := none, maxSlots := 2 ^ 32 }

/-- R118, D17: the host's open parameter `EXIT_CODE(record)`, less one, as an uninterpreted function of the record's code
number, pc and word; `Machine.exitCode` adds the one, so that the code is nonzero and nothing else is known of it
(log 17). -/
opaque exitCodePred : Nat → Word → Option Word → Nat

end Config

end Sys2Proof
end

