-- ==== Sys2Proof/Syntax.lean ====
section
/-! DEFINITION. The instructions: one constructor for each row of spec/opcode_table.json (30_encoding.md R69). -/

namespace Sys2Proof

/-- A 3-bit register-index field (10_state.md R19); every value names one of r0 to r7. -/
abbrev Reg := BitVec 3

/-- The 25-bit unsigned immediate of the IMM form (30_encoding.md R65). -/
abbrev Imm25 := BitVec 25

/-- The opcode map of R69. A constructor's arguments are the fields its opcode uses, in the order A, B, C; a field the
opcode does not use has no effect (R70) and is no argument. -/
inductive Instr where
  /-- op 0 `CMOV rA, rB, rC` (R91). -/
  | cmov (a b c : Reg)
  /-- op 1 `SLOAD rA, rB, rC` (R93). -/
  | sload (a b c : Reg)
  /-- op 2 `SSTORE rA, rB, rC` (R94). -/
  | sstore (a b c : Reg)
  /-- op 3 `ADD rA, rB, rC` (R95). -/
  | add (a b c : Reg)
  /-- op 4 `MUL rA, rB, rC` (R96). -/
  | mul (a b c : Reg)
  /-- op 5 `DIV rA, rB, rC` (R97). -/
  | div (a b c : Reg)
  /-- op 6 `NAND rA, rB, rC` (R98). -/
  | nand (a b c : Reg)
  /-- op 7 `HALT` (R100). -/
  | halt
  /-- op 8 `MAP rB, rC` (R104). -/
  | map (b c : Reg)
  /-- op 9 `UNMAP rC` (R105). -/
  | unmap (c : Reg)
  /-- op 10 `OUT rC` (R106). -/
  | output (c : Reg)
  /-- op 11 `IN rC` (R107). -/
  | input (c : Reg)
  /-- op 12 `LOADPROG rB, rC` (R101). -/
  | loadprog (b c : Reg)
  /-- op 13 `LV rA, imm` (R92). -/
  | lv (a : Reg) (imm : Imm25)
  /-- op 14, the table's first `(invalid)` row: decoding gives INVALID (R67, R68), dispatching it faults (R71; log 16). -/
  | invalid14
  /-- op 15, the table's second `(invalid)` row (R71; log 16). -/
  | invalid15
  deriving DecidableEq, Repr

end Sys2Proof
end

