-- ==== Sys2Proof/WellFormed.lean ====
section
/-! DEFINITION. What an assembler may encode (spec/30_encoding.md R74, R75, R76, R77): a decoded instruction's fields are
in range by their types, so the range checks of R76 are on the assembler's numbers. -/

namespace Sys2Proof

namespace Instr

/-- R72: the instructions are the 14 of opcodes 0 to 13; an INVALID word is no instruction a program can write in
assembler (R77), though the decoder answers it (R67). -/
def wellFormed : Instr → Bool
  | .cmov _ _ _ => true
  | .sload _ _ _ => true
  | .sstore _ _ _ => true
  | .add _ _ _ => true
  | .mul _ _ _ => true
  | .div _ _ _ => true
  | .nand _ _ _ => true
  | .halt => true
  | .map _ _ => true
  | .unmap _ => true
  | .output _ => true
  | .input _ => true
  | .loadprog _ _ => true
  | .lv _ _ => true
  | .invalid14 => false
  | .invalid15 => false

end Instr

/-- One statement of the assembler, its numbers as they were written (R77). -/
inductive AsmStmt where
  /-- A three-register statement: opcode and the three register numbers, 0 where the opcode uses no field. -/
  | r3 (op a b c : Nat)
  /-- `LV rA, imm`. -/
  | lv (a imm : Nat)
  /-- `.word v`. -/
  | word (v : Nat)
  deriving DecidableEq, Repr

namespace AsmStmt

/-- R76: a register number above 7, an opcode outside the form's (above 13, or 13 in the R3 form, R74) and an immediate
above 2^25 - 1 are refused, not truncated; `.word` takes any 32-bit value (R77). -/
def wellFormed : AsmStmt → Bool
  | .r3 op a b c => decide (op ≤ 12) && decide (a ≤ 7) && decide (b ≤ 7) && decide (c ≤ 7)
  | .lv a imm => decide (a ≤ 7) && decide (imm ≤ 2 ^ 25 - 1)
  | .word v => decide (v < 2 ^ 32)

end AsmStmt

end Sys2Proof
end

