-- ==== Sys2Proof/Decode.lean ====
section
/-! DEFINITION. The bit-field codec (spec/00_scope.md R8, R9), the decoder (30_encoding.md R61 to R73) on words and on
bytes, and the canonical encoder (R74, R75). -/

namespace Sys2Proof

/-- R8 `get_field(w, width, lsb)`: the `width` bits of `w` that start at bit `lsb`. -/
def getField (w : Word) (width lsb : Nat) : BitVec width := w.extractLsb' lsb width

/-- `width` one bits at bits `width - 1` to 0. -/
def lowMask (width : Nat) : Word := BitVec.ofNat 32 (2 ^ width - 1)

/-- R8 `set_field(w, width, lsb, v)`: `w` with those bits replaced by the low `width` bits of `v`. -/
def setField (w : Word) (width lsb : Nat) (v : Word) : Word :=
  (w &&& ~~~(lowMask width <<< lsb)) ||| ((v &&& lowMask width) <<< lsb)

/-- R9 `zext_32`: the only widening an instruction uses. -/
def zext32 {n : Nat} (v : BitVec n) : Word := v.setWidth 32

/-- R9: sign extension is defined as usual and used by no rule of this machine. -/
def sext32 {n : Nat} (v : BitVec n) : Word := v.signExtend 32

/-- R9 `{a, b, c, d}`: the first byte most significant. -/
def concatBytes (a b c d : Byte) : Word := a ++ b ++ c ++ d

/-- The four bytes of a word in the image's order, most significant first (R41, R131). -/
def wordBytes (w : Word) : List Byte :=
  [getField w 8 24, getField w 8 16, getField w 8 8, getField w 8 0]

/-! ## The decoder's outputs (R34) -/

/-- R63: the three results of the format choice. -/
inductive Fmt where
  | r3
  | imm
  | invalid
  deriving DecidableEq, Repr

/-- R34: the decoder block's field outputs; which of them mean something is the format's to say. -/
structure Fields where
  op : BitVec 4
  a : Reg
  b : Reg
  c : Reg
  ia : Reg
  imm : Imm25
  deriving DecidableEq, Repr

/-- R63: the opcode alone selects the format. -/
def Fields.fmt (d : Fields) : Fmt :=
  if d.op.toNat ≤ 12 then .r3 else if d.op.toNat = 13 then .imm else .invalid

/-- R62, R64, R65: where each field stands in the word. -/
def fieldsOf (w : Word) : Fields where
  op := getField w 4 28
  a := getField w 3 6
  b := getField w 3 3
  c := getField w 3 0
  ia := getField w 3 25
  imm := getField w 25 0

/-- R69: the instruction each opcode names and the fields it uses. -/
def Fields.select (d : Fields) : Instr :=
  match d.op.toNat with
  | 0 => .cmov d.a d.b d.c
  | 1 => .sload d.a d.b d.c
  | 2 => .sstore d.a d.b d.c
  | 3 => .add d.a d.b d.c
  | 4 => .mul d.a d.b d.c
  | 5 => .div d.a d.b d.c
  | 6 => .nand d.a d.b d.c
  | 7 => .halt
  | 8 => .map d.b d.c
  | 9 => .unmap d.c
  | 10 => .output d.c
  | 11 => .input d.c
  | 12 => .loadprog d.b d.c
  | 13 => .lv d.ia d.imm
  | 14 => .invalid14
  | _ => .invalid15

/-- R67: decoding, total on every 32-bit word; a 4-bit opcode has no value past 15, so the last arm of
`Fields.select` is opcode 15. -/
def decode (w : Word) : Instr := (fieldsOf w).select

/-- Why a byte sequence holds no instruction. -/
inductive DecodeError where
  /-- Fewer than the four bytes of a word are left (R61, R132). -/
  | truncated
  deriving DecidableEq, Repr

/-- R61, R131: the instruction at the head of a byte sequence, the first byte the most significant, and the bytes left. -/
def decodeBytes : List Byte → Except DecodeError (Instr × List Byte)
  | a :: b :: c :: d :: rest => .ok (decode (concatBytes a b c d), rest)
  | _ => .error .truncated

/-- The host's question: the instruction of a table row whose bits are `w`, the bits above `nbits` zero, laid out as the
image holds it (log 27). -/
def decodeTableWord (nbits w : Nat) : Option Instr :=
  match decodeBytes (wordBytes (BitVec.ofNat 32 (w % 2 ^ nbits))) with
  | .ok (i, _) => some i
  | .error .truncated => none

/-! ## The encoder -/

/-- R74: the canonical three-register word, bits 27 to 9 zero. -/
def encR3 (op : BitVec 4) (a b c : Reg) : Word :=
  setField (setField (setField (setField 0 4 28 (zext32 op)) 3 6 (zext32 a)) 3 3 (zext32 b)) 3 0 (zext32 c)

/-- R75: the immediate-load word. -/
def encImm (a : Reg) (imm : Imm25) : Word :=
  setField (setField (setField 0 4 28 13) 3 25 (zext32 a)) 25 0 (zext32 imm)

/-- R69: an instruction's opcode. -/
def Instr.opcode : Instr → BitVec 4
  | .cmov _ _ _ => 0
  | .sload _ _ _ => 1
  | .sstore _ _ _ => 2
  | .add _ _ _ => 3
  | .mul _ _ _ => 4
  | .div _ _ _ => 5
  | .nand _ _ _ => 6
  | .halt => 7
  | .map _ _ => 8
  | .unmap _ => 9
  | .output _ => 10
  | .input _ => 11
  | .loadprog _ _ => 12
  | .lv _ _ => 13
  | .invalid14 => 14
  | .invalid15 => 15

/-- R74, R75, R77: the canonical word of an instruction, unused fields zero. An INVALID instruction's word is what
`.word` writes for its opcode with every other bit zero. -/
def encode (i : Instr) : Word :=
  match i with
  | .cmov a b c => encR3 i.opcode a b c
  | .sload a b c => encR3 i.opcode a b c
  | .sstore a b c => encR3 i.opcode a b c
  | .add a b c => encR3 i.opcode a b c
  | .mul a b c => encR3 i.opcode a b c
  | .div a b c => encR3 i.opcode a b c
  | .nand a b c => encR3 i.opcode a b c
  | .halt => encR3 i.opcode 0 0 0
  | .map b c => encR3 i.opcode 0 b c
  | .unmap c => encR3 i.opcode 0 0 c
  | .output c => encR3 i.opcode 0 0 c
  | .input c => encR3 i.opcode 0 0 c
  | .loadprog b c => encR3 i.opcode 0 b c
  | .lv a imm => encImm a imm
  | .invalid14 => encR3 i.opcode 0 0 0
  | .invalid15 => encR3 i.opcode 0 0 0

/-- R76: the assembler's word of a statement, none where it refuses. -/
def assemble (t : AsmStmt) : Option Word :=
  if t.wellFormed then
    match t with
    | .r3 op a b c => some (encR3 (BitVec.ofNat 4 op) (BitVec.ofNat 3 a) (BitVec.ofNat 3 b) (BitVec.ofNat 3 c))
    | .lv a imm => some (encImm (BitVec.ofNat 3 a) (BitVec.ofNat 25 imm))
    | .word v => some (BitVec.ofNat 32 v)
  else none

end Sys2Proof
end

