-- ==== Sys2Proof/Machine/State.lean ====
section
/-! DEFINITION. The architectural state of spec/10_state.md R17, as plain data, the ways a step of the model can stop, and
the state after reset (70_reset_and_hazards.md R126 to R130). -/

namespace Sys2Proof.Machine

/-- R23: a segment, its length fixed when it is created (R24), its words held in one canonical form: the pairs (offset,
word), offsets strictly rising and below the length, no word equal to `unlistedWord` (`Segment.wf`, log 7). -/
structure Segment where
  len : Word
  cells : List (Nat × Word)
  deriving DecidableEq, Repr

/-- R17, R23: a slot of the segment store. -/
inductive Slot where
  | mapped (seg : Segment)
  | unmapped
  deriving DecidableEq, Repr

/-- R23, R26: the segment store, slot `i` at index `i` of `slots` (so N is `slots.length`), and the free list, the most
recently freed ID at its head (log 24). -/
structure Memory where
  slots : List Slot
  free : List Word
  deriving DecidableEq, Repr

/-- The thirteen faults of 60_exceptions.md R111, in the order of their codes. -/
inductive FaultCode where
  | pcOutOfRange
  | invalidOpcode
  | loadBadSegment
  | loadBadOffset
  | storeBadSegment
  | storeBadOffset
  | divideByZero
  | allocExhausted
  | unmapSegmentZero
  | unmapBadSegment
  | outputOutOfRange
  | inputOutOfRange
  | loadprogBadSegment
  deriving DecidableEq, Repr

/-- R113: the fault record; `word` is none exactly when no word was fetched. -/
structure FaultRecord where
  code : FaultCode
  pc : Word
  word : Option Word
  deriving DecidableEq, Repr

/-- R22: the run status. -/
inductive RunStatus where
  | running
  | halted
  | faulted (r : FaultRecord)
  deriving DecidableEq, Repr

/-- R108: what the host does once its items are taken: close the stream, or never send anything again. -/
inductive InputTail where
  | eof
  | stall
  deriving DecidableEq, Repr

/-- R33, R108: the host's input not yet taken. Items above 255 are admitted so that R107's fault case can be expressed. -/
structure InputPort where
  items : List Nat
  tail : InputTail
  deriving DecidableEq, Repr

/-- R17, with the launch parameters of R5 beside it (`config`, the model's own field, log 3). -/
structure State where
  /-- R18: r0 to r7. -/
  x : Vector Word 8
  /-- R20: the index in segment 0 of the instruction. -/
  pc : Word
  /-- R17 `slots` and `free`. -/
  mem : Memory
  /-- R22. -/
  status : RunStatus
  /-- R33. -/
  inp : InputPort
  /-- R33: the bytes emitted so far, the oldest first. -/
  out : List Byte
  /-- R5: `MAX_TOTAL_WORDS` and `MAX_SLOTS`; no instruction changes them. -/
  config : Config
  deriving DecidableEq, Repr

/-- Why the machine has no step (log 1, log 2). A fault of the hardware is not one of these: it is taken as R114 says and
gives a next state whose status is Faulted. -/
inductive Fault where
  /-- Raised by `step` in the Halted status, where no step occurs (40_sequencer.md R86). Safe: the run has ended. -/
  | halted
  /-- Raised by `step` in the Faulted status, with its record (R86, R114). Safe: the run has ended. -/
  | faulted (r : FaultRecord)
  /-- Raised by `IN` where no item is left and the host never sends another: no step, the core waits forever
  (46_io.md R108). Safe: the model stops where the hardware waits. -/
  | inputWaits
  deriving DecidableEq, Repr

/-- What the model gives no meaning. -/
inductive Refusal where
  /-- Raised by an arm of `exec` for an instruction not modelled yet; no arm raises it. Safe. -/
  | notModelled (mnemonic : String)
  deriving DecidableEq, Repr

/-- The state after reset (R126 to R130): every register 0, pc 0, Running, one mapped slot, the free list and `out` empty.
The launch parameters have the values of logs 3, 4 and 5: the empty image (R135), `INPUT = ([], EOF)` and the default
limits. `Boot.lean`'s `boot` gives the reset state of every image, input and limits. -/
def State.reset : State where
  x := Vector.replicate 8 0#32
  pc := 0#32
  mem := { slots := [.mapped { len := 0#32, cells := [] }], free := [] }
  status := .running
  inp := { items := [], tail := .eof }
  out := []
  config := Config.default

end Sys2Proof.Machine
end

