-- ==== Sys2Proof/Machine/Ops.lean ====
section
/-! DEFINITION. The shared operations: the register file (spec/10_state.md R35), the named updates of State, the
segment-store controller (R36; 20_memory.md R44 to R52), the ports (46_io.md R108, R109) and fault entry
(60_exceptions.md R114). A return from a fault does not exist (R115). -/

namespace Sys2Proof.Machine

/-! ## Registers and the other fields (R10, R12) -/

namespace State

/-- R10 `x[i]`. No register is hardwired (R18). -/
def reg (s : State) (r : Reg) : Word := s.x[r.toNat]'r.isLt

/-- R10 `x[i] <- v`. -/
def setReg (s : State) (r : Reg) (v : Word) : State := { s with x := s.x.set r.toNat v r.isLt }

/-- R84: `pc <- pc + 1`. -/
def advance (s : State) : State := { s with pc := s.pc + 1 }

/-- R12: `pc <- target`. -/
def jump (s : State) (target : Word) : State := { s with pc := target }

/-- The segment store after an SSC request. -/
def setMem (s : State) (m : Memory) : State := { s with mem := m }

/-- The run status (R22). -/
def setStatus (s : State) (st : RunStatus) : State := { s with status := st }

/-- The input port after an item is taken (R108). -/
def setInp (s : State) (p : InputPort) : State := { s with inp := p }

/-- R109 `OutWrite(b)`: the host accepts every byte, in order. -/
def emit (s : State) (b : Byte) : State := { s with out := s.out ++ [b] }

end State

/-! ## Words of one segment -/

/-- What a word of a mapped segment that is not listed reads as: Map creates zero-filled segments (R48). -/
def unlistedWord : Word := 0#32

/-- The word a canonical list holds at an offset. -/
def cellsGet : List (Nat × Word) → Nat → Word
  | [], _ => unlistedWord
  | (k, v) :: rest, off => if off = k then v else cellsGet rest off

/-- Replace the word at an offset, keeping the list canonical: writing `unlistedWord` removes the entry. -/
def cellsSet : List (Nat × Word) → Nat → Word → List (Nat × Word)
  | [], off, v => if v = unlistedWord then [] else [(off, v)]
  | (k, w) :: rest, off, v =>
    if off < k then (if v = unlistedWord then (k, w) :: rest else (off, v) :: (k, w) :: rest)
    else if off = k then (if v = unlistedWord then rest else (off, v) :: rest)
    else (k, w) :: cellsSet rest off v

/-- The canonical list of a sequence of words that starts at an offset. -/
def cellsOfWords : Nat → List Word → List (Nat × Word)
  | _, [] => []
  | off, w :: ws => if w = unlistedWord then cellsOfWords (off + 1) ws else (off, w) :: cellsOfWords (off + 1) ws

namespace Segment

/-- R48: a zero-filled segment. -/
def zeroed (len : Word) : Segment := { len := len, cells := [] }

/-- A segment that holds the given words (R129); its length fits a Word by R133. -/
def ofWords (ws : List Word) : Segment := { len := BitVec.ofNat 32 ws.length, cells := cellsOfWords 0 ws }

/-- The word at an offset the caller has checked. -/
def get (g : Segment) (off : Word) : Word := cellsGet g.cells off.toNat

/-- Replace the word at an offset the caller has checked; the length stays (R24). -/
def set (g : Segment) (off v : Word) : Segment := { g with cells := cellsSet g.cells off.toNat v }

/-- The canonical form of a segment's words. -/
abbrev wf (g : Segment) : Prop :=
  g.cells.Pairwise (fun p q => p.1 < q.1) ∧ ∀ p ∈ g.cells, p.1 < g.len.toNat ∧ p.2 ≠ unlistedWord

end Segment

namespace Slot

/-- The words a slot holds, for the totals of R48 and R51: an unmapped slot holds none. -/
def words : Slot → Nat
  | .mapped g => g.len.toNat
  | .unmapped => 0

/-- A mapped slot's segment is in canonical form. -/
def wf : Slot → Bool
  | .mapped g => decide g.wf
  | .unmapped => true

end Slot

/-! ## The segment-store controller -/

/-- R36: how READ and WRITE fail. -/
inductive AccessError where
  | badId
  | badOff
  deriving DecidableEq, Repr

/-- R36: how FREE fails. -/
inductive FreeError where
  | zeroId
  | badId
  deriving DecidableEq, Repr

/-- R36: how DUP0 fails. -/
inductive DupError where
  | badId
  | exhausted
  deriving DecidableEq, Repr

namespace Memory

/-- The canonical form of the store: every mapped segment's words are canonical, so that equal stores are equal data. -/
abbrev wf (m : Memory) : Prop := ∀ sl ∈ m.slots, sl.wf = true

/-- The segment of a slot, none for an ID out of range or unmapped; an ID indexes the slots directly (R54). -/
def segment? (m : Memory) (id : Word) : Option Segment :=
  match m.slots[id.toNat]? with
  | some (.mapped g) => some g
  | some .unmapped => none
  | none => none

/-- R45. -/
def valid (m : Memory) (id : Word) : Bool := (m.segment? id).isSome

/-- R44. A store whose slot has no segment answers 0 (log 8); slot 0 always has one (R25). -/
def segLen (m : Memory) (id : Word) : Word :=
  match m.segment? id with
  | some g => g.len
  | none => 0#32

/-- R46 `MemRead(id, off)`. -/
def read (m : Memory) (id off : Word) : Except AccessError Word :=
  match m.segment? id with
  | none => .error .badId
  | some g => if g.len ≤ off then .error .badOff else .ok (g.get off)

/-- Put a slot's new contents in its place. -/
def setSlot (m : Memory) (id : Word) (sl : Slot) : Memory := { m with slots := m.slots.set id.toNat sl }

/-- R47 `MemWrite(id, off, v)`. -/
def write (m : Memory) (id off v : Word) : Except AccessError Memory :=
  match m.segment? id with
  | none => .error .badId
  | some g => if g.len ≤ off then .error .badOff else .ok (m.setSlot id (.mapped (g.set off v)))

/-- R48, R51: the number of words all mapped segments hold together. -/
def totalWords (m : Memory) : Nat := (m.slots.map Slot.words).sum

end Memory

/-- R48, R51: a total within `MAX_TOTAL_WORDS`. -/
def fitsLimit (cfg : Config) (total : Nat) : Bool :=
  match cfg.maxTotalWords with
  | none => true
  | some limit => decide (total ≤ limit)

namespace Memory

/-- R48 `Alloc(len)`: the new ID and the store with its segment, none for EXHAUSTED. -/
def alloc (m : Memory) (cfg : Config) (len : Word) : Option (Word × Memory) :=
  if fitsLimit cfg (m.totalWords + len.toNat) then
    match m.free with
    | id :: rest => some (id, { slots := m.slots.set id.toNat (.mapped (Segment.zeroed len)), free := rest })
    | [] =>
      if cfg.maxSlots ≤ m.slots.length then none
      else some (BitVec.ofNat 32 m.slots.length, { m with slots := m.slots ++ [.mapped (Segment.zeroed len)] })
  else none

/-- R50 `Free(id)`; ID 0 is checked first (60_exceptions.md R116). -/
def release (m : Memory) (id : Word) : Except FreeError Memory :=
  if id = 0#32 then .error .zeroId
  else if m.valid id then .ok { slots := m.slots.set id.toNat .unmapped, free := id :: m.free }
  else .error .badId

/-- R51 `Dup0(id)`: the copy is by value. -/
def dup0 (m : Memory) (cfg : Config) (id : Word) : Except DupError Memory :=
  if id = 0#32 then .ok m
  else match m.segment? id with
    | none => .error .badId
    | some g =>
      if fitsLimit cfg (m.totalWords - (m.segLen 0#32).toNat + g.len.toNat) then .ok (m.setSlot 0#32 (.mapped g))
      else .error .exhausted

/-- R52 `Fetch(pc)`, none for PC_RANGE. -/
def fetch (m : Memory) (pc : Word) : Option Word :=
  if m.segLen 0#32 ≤ pc then none
  else match m.read 0#32 pc with
    | .ok w => some w
    | .error _ => none

end Memory

/-! ## The input port -/

/-- R108: the results of `InRead()`. -/
inductive InResult where
  | data (v : Nat) (rest : InputPort)
  | eof
  | waits
  deriving DecidableEq, Repr

/-- R108 `InRead()`; the caller takes the item by keeping `rest` (R107). -/
def InputPort.read (p : InputPort) : InResult :=
  match p.items with
  | v :: rest => .data v { p with items := rest }
  | [] =>
    match p.tail with
    | .eof => .eof
    | .stall => .waits

/-! ## Taking a fault -/

/-- R111: the numeric code of a fault. -/
def FaultCode.number : FaultCode → Nat
  | .pcOutOfRange => 1
  | .invalidOpcode => 2
  | .loadBadSegment => 3
  | .loadBadOffset => 4
  | .storeBadSegment => 5
  | .storeBadOffset => 6
  | .divideByZero => 7
  | .allocExhausted => 8
  | .unmapSegmentZero => 9
  | .unmapBadSegment => 10
  | .outputOutOfRange => 11
  | .inputOutOfRange => 12
  | .loadprogBadSegment => 13

/-- R113: the record of a fault taken in a state: the pc of the step and the word fetched there, none where the fetch
itself failed (log 9). -/
def State.faultRecord (s : State) (code : FaultCode) : FaultRecord :=
  { code := code, pc := s.pc, word := s.mem.fetch s.pc }

/-- R12, R114 `raise`: the status becomes Faulted with the record and nothing else changes; there is no handler. -/
def State.takeFault (s : State) (code : FaultCode) : State := s.setStatus (.faulted (s.faultRecord code))

/-! ## Placing an instruction word, for Step.lean's `withFetchWord` -/

/-- The store with `w` at `(0, pc)`: segment 0 keeps its other words and is made just long enough (log 6). -/
def Memory.placeWord (m : Memory) (pc w : Word) : Memory :=
  let g := (m.segment? 0#32).getD (Segment.zeroed 0#32)
  let g' : Segment := { g with len := if g.len ≤ pc then pc + 1 else g.len }
  match m.slots with
  | [] => { m with slots := [.mapped (g'.set pc w)] }
  | _ :: rest => { m with slots := .mapped (g'.set pc w) :: rest }

/-- The pc at which an instruction can stand: segment 0 has at most 2^32 - 1 words, so none stands at the last index
(R85, log 6). -/
def fetchablePc (pc : Word) : Word := if pc = allOnes then 0#32 else pc

end Sys2Proof.Machine
end

