-- ==== Sys2Proof/Machine/Operands.lean ====
section
/-! DEFINITION. The operand forms: a register (spec/10_state.md R19), the 25-bit immediate (30_encoding.md R66), the
register-pair address (42_segment_access.md), and the bytes of the ports (46_io.md R106, R107). -/

namespace Sys2Proof.Machine

/-- R66: the immediate is zero-extended, not scaled or shifted. -/
def immOperand (imm : Imm25) : Word := zext32 imm

/-- R39, 42_segment_access.md: the only addressing mode, (segment ID, word offset), both from registers; no register is
changed by it. -/
def State.effAddr (s : State) (seg off : Reg) : Word × Word := (s.reg seg, s.reg off)

/-- R106: the byte OUT emits, none for a value above 255; the value is never truncated. -/
def byteOperand (v : Word) : Option Byte := if 255#32 < v then none else some (getField v 8 0)

/-- R107: the word IN writes for an item, none for an item above 255. -/
def itemOperand (v : Nat) : Option Word := if 255 < v then none else some (zext32 (BitVec.ofNat 8 v))

/-- R19, the table's column "writes": the register an instruction writes, if it writes one (CMOV only where its condition
holds). -/
def destReg : Instr → Option Reg
  | .cmov a _ _ => some a
  | .sload a _ _ => some a
  | .sstore _ _ _ => none
  | .add a _ _ => some a
  | .mul a _ _ => some a
  | .div a _ _ => some a
  | .nand a _ _ => some a
  | .halt => none
  | .map b _ => some b
  | .unmap _ => none
  | .output _ => none
  | .input c => some c
  | .loadprog _ _ => none
  | .lv a _ => some a
  | .invalid14 => none
  | .invalid15 => none

/-- R19, the table's column "reads": the registers an instruction reads. -/
def sourceRegs : Instr → List Reg
  | .cmov _ b c => [b, c]
  | .sload _ b c => [b, c]
  | .sstore a b c => [a, b, c]
  | .add _ b c => [b, c]
  | .mul _ b c => [b, c]
  | .div _ b c => [b, c]
  | .nand _ b c => [b, c]
  | .halt => []
  | .map _ c => [c]
  | .unmap c => [c]
  | .output c => [c]
  | .input _ => []
  | .loadprog b c => [b, c]
  | .lv _ _ => []
  | .invalid14 => []
  | .invalid15 => []

end Sys2Proof.Machine
end

