-- ==== Sys2Proof/Machine/Flags.lean ====
section
/-! DEFINITION. The core has no flags, condition codes or predicate registers, and no instruction computes one
(spec/10_state.md R29): the only condition is Conditional Move's test of a general register for non-zero. -/

namespace Sys2Proof.Machine

/-- R29, 41_move.md R91: the test `x[C] != 0`. -/
def condHolds (v : Word) : Bool := v != 0#32

end Sys2Proof.Machine
end

