-- ==== Sys2Proof/Machine/Arithmetic.lean ====
section
/-! DEFINITION. Arithmetic and logic (spec/43_arithmetic.md): ADD, MUL, DIV, NAND, all unsigned and modulo 2^32 (R6). -/

namespace Sys2Proof.Machine

/-- R95. -/
def execAdd (a b c : Reg) (s : State) : Host.Outcome State Fault Refusal :=
  .next (s.setReg a (s.reg b + s.reg c)).advance

/-- R96. -/
def execMul (a b c : Reg) (s : State) : Host.Outcome State Fault Refusal :=
  .next (s.setReg a (s.reg b * s.reg c)).advance

/-- R97: the unsigned quotient, rounded down; a zero divisor faults whatever the dividend is. -/
def execDiv (a b c : Reg) (s : State) : Host.Outcome State Fault Refusal :=
  if s.reg c = 0#32 then .next (s.takeFault .divideByZero)
  else .next (s.setReg a (s.reg b / s.reg c)).advance

/-- R98. -/
def execNand (a b c : Reg) (s : State) : Host.Outcome State Fault Refusal :=
  .next (s.setReg a (~~~(s.reg b &&& s.reg c))).advance

end Sys2Proof.Machine
end

