-- ==== Sys2Proof/Machine/Control.lean ====
section
/-! DEFINITION. Control (spec/44_control.md): HALT and LOADPROG, and the INVALID words of opcodes 14 and 15
(30_encoding.md R71). -/

namespace Sys2Proof.Machine

/-- R100: the status becomes Halted; the step's increment is taken too (40_sequencer.md R84, log 10), and the segment
store is kept (log 11). -/
def execHalt (s : State) : Host.Outcome State Fault Refusal :=
  .next (s.setStatus .halted).advance

/-- R101: the target is not checked here; the next fetch checks it (R83). -/
def execLoadprog (b c : Reg) (s : State) : Host.Outcome State Fault Refusal :=
  match s.mem.dup0 s.config (s.reg b) with
  | .ok m => .next ((s.setMem m).jump (s.reg c))
  | .error .badId => .next (s.takeFault .loadprogBadSegment)
  | .error .exhausted => .next (s.takeFault .allocExhausted)

/-- R71: opcode 14 in every bit combination of the other bits. -/
def execInvalid14 (s : State) : Host.Outcome State Fault Refusal := .next (s.takeFault .invalidOpcode)

/-- R71: opcode 15 in every bit combination of the other bits. -/
def execInvalid15 (s : State) : Host.Outcome State Fault Refusal := .next (s.takeFault .invalidOpcode)

end Sys2Proof.Machine
end

