-- ==== Sys2Proof/Machine/InputOutput.lean ====
section
/-! DEFINITION. Input and output (spec/46_io.md): OUT and IN, each complete within its step (R110). -/

namespace Sys2Proof.Machine

/-- R106. -/
def execOutput (c : Reg) (s : State) : Host.Outcome State Fault Refusal :=
  match byteOperand (s.reg c) with
  | some v => .next (s.emit v).advance
  | none => .next (s.takeFault .outputOutOfRange)

/-- R107: end of input gives all ones every time; a value above 255 faults and is not taken (R112); an Input whose host
never sends has no step (R108, log 2). -/
def execInput (c : Reg) (s : State) : Host.Outcome State Fault Refusal :=
  match s.inp.read with
  | .data v rest =>
    match itemOperand v with
    | some w => .next ((s.setInp rest).setReg c w).advance
    | none => .next (s.takeFault .inputOutOfRange)
  | .eof => .next (s.setReg c allOnes).advance
  | .waits => .fault .inputWaits

end Sys2Proof.Machine
end

