-- ==== Sys2Proof/Machine/Move.lean ====
section
/-! DEFINITION. Register moves (spec/41_move.md): CMOV and LV. -/

namespace Sys2Proof.Machine

/-- R91. -/
def execCmov (a b c : Reg) (s : State) : Host.Outcome State Fault Refusal :=
  .next (if condHolds (s.reg c) then (s.setReg a (s.reg b)).advance else s.advance)

/-- R92. -/
def execLv (a : Reg) (imm : Imm25) (s : State) : Host.Outcome State Fault Refusal :=
  .next (s.setReg a (immOperand imm)).advance

end Sys2Proof.Machine
end

