-- ==== Sys2Proof/Machine/SegmentAccess.lean ====
section
/-! DEFINITION. Segment access (spec/42_segment_access.md): SLOAD and SSTORE. The ID check comes before the offset check
(60_exceptions.md R116). -/

namespace Sys2Proof.Machine

/-- R93. -/
def execSload (a b c : Reg) (s : State) : Host.Outcome State Fault Refusal :=
  match s.mem.read (s.effAddr b c).1 (s.effAddr b c).2 with
  | .ok v => .next (s.setReg a v).advance
  | .error .badId => .next (s.takeFault .loadBadSegment)
  | .error .badOff => .next (s.takeFault .loadBadOffset)

/-- R94. -/
def execSstore (a b c : Reg) (s : State) : Host.Outcome State Fault Refusal :=
  match s.mem.write (s.effAddr a b).1 (s.effAddr a b).2 (s.reg c) with
  | .ok m => .next (s.setMem m).advance
  | .error .badId => .next (s.takeFault .storeBadSegment)
  | .error .badOff => .next (s.takeFault .storeBadOffset)

end Sys2Proof.Machine
end

