-- ==== Sys2Proof/Machine/SegmentAlloc.lean ====
section
/-! DEFINITION. Segment allocation (spec/45_segment_alloc.md): MAP and UNMAP. -/

namespace Sys2Proof.Machine

/-- R104: the length is read before the register receives the ID. -/
def execMap (b c : Reg) (s : State) : Host.Outcome State Fault Refusal :=
  match s.mem.alloc s.config (s.reg c) with
  | some (id, m) => .next ((s.setMem m).setReg b id).advance
  | none => .next (s.takeFault .allocExhausted)

/-- R105. -/
def execUnmap (c : Reg) (s : State) : Host.Outcome State Fault Refusal :=
  match s.mem.release (s.reg c) with
  | .ok m => .next (s.setMem m).advance
  | .error .zeroId => .next (s.takeFault .unmapSegmentZero)
  | .error .badId => .next (s.takeFault .unmapBadSegment)

end Sys2Proof.Machine
end

