-- ==== Sys2Proof/Machine/Dispatch.lean ====
section
/-! DEFINITION. The dispatch of spec/40_sequencer.md R89: one meaning per constructor. -/

namespace Sys2Proof.Machine

/-- R81 steps 3 and 4, R89: the whole effect of one decoded instruction, the pc's update included. -/
def exec (i : Instr) (s : State) : Host.Outcome State Fault Refusal :=
  match i with
  | .cmov a b c => Sys2Proof.Machine.execCmov a b c s
  | .sload a b c => Sys2Proof.Machine.execSload a b c s
  | .sstore a b c => Sys2Proof.Machine.execSstore a b c s
  | .add a b c => Sys2Proof.Machine.execAdd a b c s
  | .mul a b c => Sys2Proof.Machine.execMul a b c s
  | .div a b c => Sys2Proof.Machine.execDiv a b c s
  | .nand a b c => Sys2Proof.Machine.execNand a b c s
  | .halt => Sys2Proof.Machine.execHalt s
  | .map b c => Sys2Proof.Machine.execMap b c s
  | .unmap c => Sys2Proof.Machine.execUnmap c s
  | .output c => Sys2Proof.Machine.execOutput c s
  | .input c => Sys2Proof.Machine.execInput c s
  | .loadprog b c => Sys2Proof.Machine.execLoadprog b c s
  | .lv a imm => Sys2Proof.Machine.execLv a imm s
  | .invalid14 => Sys2Proof.Machine.execInvalid14 s
  | .invalid15 => Sys2Proof.Machine.execInvalid15 s

end Sys2Proof.Machine
end

