-- ==== Sys2Proof/Machine/Step.lean ====
section
/-! DEFINITION. The fetch-decode-execute step of spec/40_sequencer.md R81, and where the host places one instruction. -/

namespace Sys2Proof.Machine

/-- R81: fetch, decode, execute and advance while Running; in Halted and Faulted no step occurs (R86). A failed fetch
raises PC_OUT_OF_RANGE, whose record has no word (R113). -/
def step (s : State) : Host.Outcome State Fault Refusal :=
  match s.status with
  | .halted => .fault .halted
  | .faulted r => .fault (.faulted r)
  | .running =>
    match s.mem.fetch s.pc with
    | none => .next (s.takeFault .pcOutOfRange)
    | some w => exec (decode w) s

/-- The host's placing of one instruction word where `step` fetches next: segment 0 holds it at the pc and the core is
Running (log 6). -/
def State.withFetchWord (s : State) (nbits w : Nat) : State :=
  { s with
    pc := fetchablePc s.pc
    mem := s.mem.placeWord (fetchablePc s.pc) (BitVec.ofNat 32 (w % 2 ^ nbits))
    status := .running }

end Sys2Proof.Machine
end

