-- ==== Sys2Proof/Machine/Assembler.lean ====
section
/-! DEFINITION. The assembler syntax and the disassembler of spec/30_encoding.md R77 and R80 (R78: there are no
pseudo-instructions). What R77 leaves open of the layout of a line is said in log 22. -/

namespace Sys2Proof.Machine

/-- Which register fields a three-register statement writes, in the order A, B, C (R77). -/
inductive AsmShape where
  | abc
  | bc
  | c
  | none
  deriving DecidableEq, Repr

/-- R77: mnemonic and shape of the opcodes 0 to 12, in order. -/
def asmTable : List (String × AsmShape) :=
  [("CMOV", .abc), ("SLOAD", .abc), ("SSTORE", .abc), ("ADD", .abc), ("MUL", .abc), ("DIV", .abc), ("NAND", .abc),
   ("HALT", .none), ("MAP", .bc), ("UNMAP", .c), ("OUT", .c), ("IN", .c), ("LOADPROG", .bc)]

/-- Why a line is refused. -/
inductive AsmError where
  | unknownMnemonic
  | badOperands
  /-- A number out of its range (R76). -/
  | outOfRange
  deriving DecidableEq, Repr

/-! ## Reading a line -/

/-- White space inside a line. -/
def isBlank (ch : Char) : Bool := ch = ' ' || ch = '\t'

/-- A text without the blanks at its two ends. -/
def trimBlanks (cs : List Char) : List Char := ((cs.dropWhile isBlank).reverse.dropWhile isBlank).reverse

/-- The parts of a text between commas, at least one. -/
def splitCommas : List Char → List (List Char)
  | [] => [[]]
  | ch :: rest =>
    if ch = ',' then [] :: splitCommas rest
    else match splitCommas rest with
      | p :: ps => (ch :: p) :: ps
      | [] => [[ch]]

/-- The value of a digit in either case, up to 15. -/
def digitValue (ch : Char) : Option Nat :=
  if '0' ≤ ch ∧ ch ≤ '9' then some (ch.toNat - '0'.toNat)
  else if 'a' ≤ ch ∧ ch ≤ 'f' then some (ch.toNat - 'a'.toNat + 10)
  else if 'A' ≤ ch ∧ ch ≤ 'F' then some (ch.toNat - 'A'.toNat + 10)
  else none

/-- The digits of a number in a base, added to what has been read. -/
def readDigits (base : Nat) : Nat → List Char → Option Nat
  | acc, [] => some acc
  | acc, ch :: rest =>
    match digitValue ch with
    | some d => if d < base then readDigits base (acc * base + d) rest else none
    | none => none

/-- R77: a number in decimal or `0x` hexadecimal. -/
def readNumber : List Char → Option Nat
  | [] => none
  | ['0', 'x'] => none
  | '0' :: 'x' :: digits => readDigits 16 0 digits
  | digits => readDigits 10 0 digits

/-- R77: a register, `r` and a decimal number; R76 refuses one above 7 later. -/
def readReg : List Char → Option Nat
  | ['r'] => none
  | 'r' :: digits => readDigits 10 0 digits
  | _ => none

/-- The position of a mnemonic in R77's table, which is its opcode, and its shape. -/
def findMnemonic (name : List Char) : Nat → List (String × AsmShape) → Option (Nat × AsmShape)
  | _, [] => none
  | op, (n, shape) :: rest => if n.toList = name then some (op, shape) else findMnemonic name (op + 1) rest

/-- The three register numbers of a statement, 0 for a field the shape does not write (R77). -/
def readRegs : AsmShape → List (List Char) → Option (Nat × Nat × Nat)
  | .abc, [a, b, c] => do return (← readReg a, ← readReg b, ← readReg c)
  | .bc, [b, c] => do return (0, ← readReg b, ← readReg c)
  | .c, [c] => do return (0, 0, ← readReg c)
  | .none, [] => some (0, 0, 0)
  | _, _ => none

/-- R77: the statement of a mnemonic and its operands. -/
def readStmt (name : List Char) (args : List (List Char)) : Except AsmError AsmStmt :=
  if name = "LV".toList then
    match args with
    | [a, v] =>
      match readReg a, readNumber v with
      | some a, some v => .ok (.lv a v)
      | _, _ => .error .badOperands
    | _ => .error .badOperands
  else if name = ".word".toList then
    match args with
    | [v] => match readNumber v with
      | some v => .ok (.word v)
      | none => .error .badOperands
    | _ => .error .badOperands
  else match findMnemonic name 0 asmTable with
    | none => .error .unknownMnemonic
    | some (op, shape) =>
      match readRegs shape args with
      | some (a, b, c) => .ok (.r3 op a b c)
      | none => .error .badOperands

/-- R77: one line, none if it holds no statement; `;` starts a comment. -/
def readLine (line : String) : Except AsmError (Option AsmStmt) :=
  let text := trimBlanks (line.toList.takeWhile (· ≠ ';'))
  match text with
  | [] => .ok none
  | _ =>
    let name := text.takeWhile (fun ch => !isBlank ch)
    let rest := trimBlanks (text.dropWhile (fun ch => !isBlank ch))
    let args := if rest = [] then [] else (splitCommas rest).map trimBlanks
    (readStmt name args).map some

/-- R76, R77: the word of one line. -/
def assembleLine (line : String) : Except AsmError (Option Word) :=
  match readLine line with
  | .error e => .error e
  | .ok none => .ok none
  | .ok (some t) =>
    match assemble t with
    | some w => .ok (some w)
    | none => .error .outOfRange

/-- R77: the words of a text's lines in order, one instruction a line; the first line refused refuses the text. -/
def assembleLines : List String → Except AsmError (List Word)
  | [] => .ok []
  | line :: rest =>
    match assembleLine line with
    | .error e => .error e
    | .ok word =>
      match assembleLines rest with
      | .error e => .error e
      | .ok words => .ok (word.toList ++ words)

/-- R41, R131: the image of a sequence of words, each word's most significant byte first. -/
def imageBytes (words : List Word) : List Byte := words.flatMap wordBytes

/-! ## Writing a line -/

/-- A register's name (R77). -/
def regName (r : Reg) : String := "r" ++ toString r.toNat

/-- One hexadecimal digit. -/
def hexDigit (d : BitVec 4) : Char := "0123456789ABCDEF".toList.getD d.toNat '0'

/-- A word as `0x` and eight digits. -/
def hexWord (w : Word) : String :=
  "0x" ++ String.ofList ([28, 24, 20, 16, 12, 8, 4, 0].map (fun lsb => hexDigit (getField w 4 lsb)))

/-- R77: an instruction's line; an INVALID word has none of its own. -/
def asmText : Instr → Option String
  | .cmov a b c => some ("CMOV " ++ regName a ++ ", " ++ regName b ++ ", " ++ regName c)
  | .sload a b c => some ("SLOAD " ++ regName a ++ ", " ++ regName b ++ ", " ++ regName c)
  | .sstore a b c => some ("SSTORE " ++ regName a ++ ", " ++ regName b ++ ", " ++ regName c)
  | .add a b c => some ("ADD " ++ regName a ++ ", " ++ regName b ++ ", " ++ regName c)
  | .mul a b c => some ("MUL " ++ regName a ++ ", " ++ regName b ++ ", " ++ regName c)
  | .div a b c => some ("DIV " ++ regName a ++ ", " ++ regName b ++ ", " ++ regName c)
  | .nand a b c => some ("NAND " ++ regName a ++ ", " ++ regName b ++ ", " ++ regName c)
  | .halt => some "HALT"
  | .map b c => some ("MAP " ++ regName b ++ ", " ++ regName c)
  | .unmap c => some ("UNMAP " ++ regName c)
  | .output c => some ("OUT " ++ regName c)
  | .input c => some ("IN " ++ regName c)
  | .loadprog b c => some ("LOADPROG " ++ regName b ++ ", " ++ regName c)
  | .lv a imm => some ("LV " ++ regName a ++ ", " ++ toString imm.toNat)
  | .invalid14 => none
  | .invalid15 => none

/-- R80: a non-canonical word is its instruction followed by a comment; a word that is no instruction is a `.word`. -/
def disassemble (w : Word) : String :=
  match asmText (decode w) with
  | none => ".word " ++ hexWord w
  | some text => if encode (decode w) = w then text else text ++ " ; non-canonical " ++ hexWord w

end Sys2Proof.Machine
end

