-- ==== Sys2Proof/Machine/Boot.lean ====
section
/-! DEFINITION. The boot interface (spec/10_state.md R38; 70_reset_and_hazards.md R126 to R135): the loader, the images it
refuses, and the reset state of a launch. -/

namespace Sys2Proof.Machine

/-- R132, R133: why an image is refused; the core then does not start (log 23). -/
inductive BootRefusal where
  /-- The byte length is not a multiple of 4 (R132). -/
  | partialWord
  /-- More than 2^32 - 1 words (R133). -/
  | tooLong
  /-- More words than `MAX_TOTAL_WORDS` (R133). -/
  | overLimit
  deriving DecidableEq, Repr

/-- R131 `load(bytes)`: big-endian words in order, none if a partial word is left (R132). -/
def load : List Byte → Option (List Word)
  | [] => some []
  | a :: b :: c :: d :: rest => (load rest).map (concatBytes a b c d :: ·)
  | _ => none

/-- R126 to R130: the reset state with the loader's words in segment 0. -/
def launch (cfg : Config) (ws : List Word) (input : InputPort) : State where
  x := Vector.replicate 8 0#32
  pc := 0#32
  mem := { slots := [.mapped (Segment.ofWords ws)], free := [] }
  status := .running
  inp := input
  out := []
  config := cfg

/-- R134: the boot order. -/
def boot (cfg : Config) (image : List Byte) (input : InputPort) : Except BootRefusal State :=
  match load image with
  | none => .error .partialWord
  | some ws =>
    if 2 ^ 32 - 1 < ws.length then .error .tooLong
    else if fitsLimit cfg ws.length then .ok (launch cfg ws input)
    else .error .overLimit

end Sys2Proof.Machine
end

