-- ==== Sys2Proof/Machine/Observe.lean ====
section
/-! DEFINITION. What the host sees: the status and the bytes (spec/10_state.md R37), the observation of a run
(40_sequencer.md R88) and the exit status (60_exceptions.md R118). -/

namespace Sys2Proof.Machine

/-- R37: the host can read `status`, and `out` as it grows. -/
def hostView (s : State) : RunStatus × List Byte := (s.status, s.out)

/-- R88: the observation of a run that has ended, none while the core is Running. -/
def observation (s : State) : Option (RunStatus × List Byte) :=
  match s.status with
  | .running => none
  | .halted => some (hostView s)
  | .faulted _ => some (hostView s)

/-- R118, D17: `EXIT_CODE(record)`, the host's, known only to be nonzero (log 17). -/
def exitCode (r : FaultRecord) : Nat := Config.exitCodePred r.code.number r.pc r.word + 1

/-- R118: 0 on Halted, nonzero on Faulted, none before the end of the run. -/
def exitStatus (s : State) : Option Nat :=
  match s.status with
  | .running => none
  | .halted => some 0
  | .faulted r => some (exitCode r)

end Sys2Proof.Machine
end

