-- ==== Sys2Proof/Safety.lean ====
section
/-! DEFINITION. The terms claims use: the invariant of every reachable state (spec/10_state.md R25, R27; 00_scope.md R5),
what a safe run is, and what two states have in common. -/

namespace Sys2Proof.Machine

/-- R27: no ID twice on the free list, 0 never on it, every ID on it that of an unmapped slot below N, and every unmapped
slot's ID on it. -/
abbrev Memory.freeListExact (m : Memory) : Prop :=
  m.free.Nodup ∧ m.free.all (fun id => decide (id ≠ 0#32 ∧ m.slots[id.toNat]? = some .unmapped)) = true ∧
    ∀ i < m.slots.length, m.slots[i]? = some .unmapped → BitVec.ofNat 32 i ∈ m.free

/-- The invariant: the limits in their range (R5), the store canonical (log 7), slot 0 mapped (R25), the free list exact
(R27), and N and the mapped words within the limits (R48). -/
abbrev Inv (s : State) : Prop :=
  s.config.wf ∧ s.mem.wf ∧ s.mem.valid 0#32 = true ∧ s.mem.freeListExact ∧
    s.mem.slots.length ≤ s.config.maxSlots ∧ fitsLimit s.config s.mem.totalWords = true

/-- A safe state: the core has not faulted (R118: Faulted means failure). -/
abbrev NotFaulted (s : State) : Prop := ∀ r, s.status ≠ .faulted r

/-- Every register reads as before. -/
abbrev SameRegs (s t : State) : Prop := ∀ r : Reg, t.reg r = s.reg r

/-- Every register but `d` reads as before. -/
abbrev SameRegsBut (d : Reg) (s t : State) : Prop := ∀ r : Reg, r ≠ d → t.reg r = s.reg r

/-- The whole store is as before: every word of every segment, every slot, and the free list. -/
abbrev SameStore (s t : State) : Prop :=
  (∀ id off : Word, t.mem.read id off = s.mem.read id off) ∧ t.mem.slots = s.mem.slots ∧ t.mem.free = s.mem.free

/-- Nothing was taken from the input port and nothing emitted. -/
abbrev SamePorts (s t : State) : Prop := t.inp = s.inp ∧ t.out = s.out

/-- The run status and the launch parameters are as before. -/
abbrev SameStatus (s t : State) : Prop := t.status = s.status ∧ t.config = s.config

/-- `t` is `s` after the fault `code`: the status is Faulted with the record of the instruction at the pc (R113), and
nothing else has changed (R114). -/
abbrev FaultsWith (code : FaultCode) (s t : State) : Prop :=
  t.status = .faulted { code := code, pc := s.pc, word := s.mem.fetch s.pc } ∧
    SameRegs s t ∧ t.pc = s.pc ∧ SameStore s t ∧ SamePorts s t ∧ t.config = s.config

end Sys2Proof.Machine
end

