-- ==== Sys2Proof/Certificates/Slice0/Obligations.lean ====
section
/-! DEFINITION. The statements for the provers. Each docstring names the rule of spec/ it states, or the sections and
decisions it rests on. `w.extractLsb hi lo` is the spec's `w[hi:lo]` (R7). -/

open Sys2Proof Sys2Proof.Machine

/-! ## Encoding and decoding -/

/-- R8: get_field is the zero-extended field; set_field replaces exactly its field by the low bits of the value; a field
written reads back. -/
def Obligations.FieldWriteReadBack : Prop :=
  ∀ (w v : Word) (width lsb : Nat), width + lsb ≤ 32 →
    (zext32 (getField w width lsb)).toNat = w.toNat / 2 ^ lsb % 2 ^ width ∧
    (getField (setField w width lsb v) width lsb).toNat = v.toNat % 2 ^ width ∧
    ∀ i < 32, (setField w width lsb v).getLsbD i =
      if lsb ≤ i ∧ i < lsb + width then v.getLsbD (i - lsb) else w.getLsbD i

/-- The decoder vectors of 95_test_vectors.md section 2.1 and one word a family from section 2. -/
def Obligations.SpecWordsDecode : Prop :=
  decode 0x00000000#32 = .cmov 0 0 0 ∧ decode 0x0FFFFFFF#32 = .cmov 7 7 7 ∧ decode 0x3FFFFE00#32 = .add 0 0 0 ∧
  decode 0x7FFFFFFF#32 = .halt ∧ decode 0xD3FFFFFF#32 = .lv 1 0x1FFFFFF#25 ∧ decode 0xDE000000#32 = .lv 7 0 ∧
  decode 0xC0000010#32 = .loadprog 2 0 ∧ decode 0xE0000000#32 = .invalid14 ∧ decode 0xFFFFFFFF#32 = .invalid15 ∧
  decode 0x10000153#32 = .sload 5 2 3 ∧ decode 0x2000009C#32 = .sstore 2 3 4 ∧ decode 0x80000011#32 = .map 2 1 ∧
  decode 0x90000002#32 = .unmap 2 ∧ decode 0xA0000001#32 = .output 1 ∧ decode 0xB0000003#32 = .input 3

/-- R67: the format and the fields of every word. -/
def Obligations.DecoderFormatAndFields : Prop :=
  ∀ w : Word, (fieldsOf w).op = w.extractLsb 31 28 ∧
    ((w.extractLsb 31 28).toNat ≤ 12 → (fieldsOf w).fmt = .r3 ∧ (fieldsOf w).a = w.extractLsb 8 6 ∧
      (fieldsOf w).b = w.extractLsb 5 3 ∧ (fieldsOf w).c = w.extractLsb 2 0) ∧
    ((w.extractLsb 31 28).toNat = 13 → (fieldsOf w).fmt = .imm ∧ (fieldsOf w).ia = w.extractLsb 27 25 ∧
      (fieldsOf w).imm = w.extractLsb 24 0) ∧
    ((w.extractLsb 31 28).toNat = 14 ∨ (w.extractLsb 31 28).toNat = 15 → (fieldsOf w).fmt = .invalid)

/-- 30_encoding.md section 4 (round trip): the decoder's outputs on every canonical word are what was encoded. -/
def Obligations.FieldsRoundTrip : Prop :=
  (∀ (op : BitVec 4) (a b c : Reg), op.toNat ≤ 12 →
    (fieldsOf (encR3 op a b c)).fmt = .r3 ∧ (fieldsOf (encR3 op a b c)).op = op ∧
    (fieldsOf (encR3 op a b c)).a = a ∧ (fieldsOf (encR3 op a b c)).b = b ∧ (fieldsOf (encR3 op a b c)).c = c) ∧
  ∀ (a : Reg) (v : Imm25), (fieldsOf (encImm a v)).fmt = .imm ∧ (fieldsOf (encImm a v)).op = 13#4 ∧
    (fieldsOf (encImm a v)).ia = a ∧ (fieldsOf (encImm a v)).imm = v

/-- 30_encoding.md section 4: decoding an encoded instruction gives it back, for every instruction and every operand. -/
def Obligations.DecodeEncodeRoundTrip : Prop := ∀ i : Instr, decode (encode i) = i

/-- 30_encoding.md section 4 (canonical words): re-encoding a decoded word of opcode 0 to 13 gives the word back exactly
when its ignored bits and unused fields are 0. -/
def Obligations.ReencodeExactlyCanonical : Prop :=
  ∀ w : Word, (w.extractLsb 31 28).toNat ≤ 13 →
    (encode (decode w) = w ↔
      ((w.extractLsb 31 28).toNat ≤ 12 → w.extractLsb 27 9 = 0#19) ∧
      ((w.extractLsb 31 28).toNat = 7 → w.extractLsb 8 0 = 0#9) ∧
      ((w.extractLsb 31 28).toNat = 8 ∨ (w.extractLsb 31 28).toNat = 12 → w.extractLsb 8 6 = 0#3) ∧
      ((w.extractLsb 31 28).toNat = 9 ∨ (w.extractLsb 31 28).toNat = 10 ∨ (w.extractLsb 31 28).toNat = 11 →
        w.extractLsb 8 3 = 0#6))

/-- 30_encoding.md section 3 (ignored bits), reading D15 (log 15): no value in bits 27 to 9 of a three-register word, in a
field its opcode does not use, or below an invalid opcode changes what is decoded. -/
def Obligations.IgnoredBitsHaveNoEffect : Prop :=
  ∀ w v : Word,
    ((w.extractLsb 31 28).toNat ≤ 12 → decode (setField w 19 9 v) = decode w) ∧
    ((w.extractLsb 31 28).toNat = 7 → decode (setField w 9 0 v) = decode w) ∧
    ((w.extractLsb 31 28).toNat = 8 ∨ (w.extractLsb 31 28).toNat = 12 → decode (setField w 3 6 v) = decode w) ∧
    ((w.extractLsb 31 28).toNat = 9 ∨ (w.extractLsb 31 28).toNat = 10 ∨ (w.extractLsb 31 28).toNat = 11 →
      decode (setField w 6 3 v) = decode w) ∧
    (14 ≤ (w.extractLsb 31 28).toNat → decode (setField w 28 0 v) = decode w)

/-- R75: the value of an immediate-load word. -/
def Obligations.ImmediateWordValue : Prop :=
  ∀ (a : Reg) (v : Imm25),
    encImm a v = setField (setField (setField 0#32 4 28 13#32) 3 25 (zext32 a)) 25 0 (zext32 v) ∧
    (encImm a v).toNat = 0xD0000000 + a.toNat * 2 ^ 25 + v.toNat

/-- 30_encoding.md section 4: the value of a canonical three-register word (decision D13: the ignored bits are 0). -/
def Obligations.ThreeRegisterWordValue : Prop :=
  ∀ (op : BitVec 4) (a b c : Reg),
    (encR3 op a b c).toNat = op.toNat * 2 ^ 28 + a.toNat * 2 ^ 6 + b.toNat * 2 ^ 3 + c.toNat

/-- 30_encoding.md section 4, decision D13: the assembler refuses exactly the numbers out of range, and what it accepts it
encodes with those numbers, truncating nothing. -/
def Obligations.AssemblerNeverTruncates : Prop :=
  (∀ op a b c : Nat, (assemble (.r3 op a b c) = none ↔ 12 < op ∨ 7 < a ∨ 7 < b ∨ 7 < c) ∧
    ∀ w, assemble (.r3 op a b c) = some w → w.toNat = op * 2 ^ 28 + a * 2 ^ 6 + b * 2 ^ 3 + c) ∧
  (∀ a v : Nat, (assemble (.lv a v) = none ↔ 7 < a ∨ 2 ^ 25 - 1 < v) ∧
    ∀ w, assemble (.lv a v) = some w → w.toNat = 0xD0000000 + a * 2 ^ 25 + v) ∧
  ∀ v : Nat, (assemble (.word v) = none ↔ 2 ^ 32 ≤ v) ∧ ∀ w, assemble (.word v) = some w → w.toNat = v

/-- The host's two questions of a word (logs 6 and 27): the table word decodes as the word does, and a step of the state
with the word placed executes it. -/
def Obligations.TableWordRunsNext : Prop :=
  ∀ (w : Word) (s : State), s.mem.wf → decodeTableWord 32 w.toNat = some (decode w) ∧
    step (s.withFetchWord 32 w.toNat) = exec (decode w) (s.withFetchWord 32 w.toNat)

/-! ## Reset and boot -/

/-- R126, R127: after reset every register is 0 and the pc is 0, whatever is launched, so the first instruction executed
is word 0 of segment 0. -/
def Obligations.ResetRegistersAndPcZero : Prop :=
  ((∀ r, State.reset.reg r = 0#32) ∧ State.reset.pc = 0#32) ∧
  ∀ (cfg : Config) (image : List Byte) (input : InputPort) (s : State), boot cfg image input = .ok s →
    (∀ r, s.reg r = 0#32) ∧ s.pc = 0#32 ∧ ∀ w, s.mem.read 0#32 0#32 = .ok w → step s = exec (decode w) s

/-- 70_reset_and_hazards.md section 1, decision D11: the rest of the reset state of a launch. `State.reset` is the
launch of the empty image with the input ([], EOF) and the default limits, which are the model's choices (logs 3, 4, 5).
-/
def Obligations.LaunchResetState : Prop :=
  boot Config.default [] { items := [], tail := .eof } = .ok State.reset ∧
  ∀ (cfg : Config) (image : List Byte) (input : InputPort) (s : State), boot cfg image input = .ok s →
    s.status = .running ∧ s.mem.slots.length = 1 ∧ s.mem.valid 0#32 = true ∧ s.mem.free = [] ∧ s.inp = input ∧
    s.out = [] ∧ s.config = cfg

/-- R131: the loader groups the bytes into big-endian words, in order, their number the byte length divided by 4. -/
def Obligations.LoaderGroupsBigEndian : Prop :=
  ∀ (bytes : List Byte) (n : Nat), bytes.length = 4 * n →
    ∃ ws, load bytes = some ws ∧ ws.length = n ∧
      ∀ k < n, (ws.getD k 0#32).toNat =
        (bytes.getD (4 * k) 0#8).toNat * 2 ^ 24 + (bytes.getD (4 * k + 1) 0#8).toNat * 2 ^ 16 +
        (bytes.getD (4 * k + 2) 0#8).toNat * 2 ^ 8 + (bytes.getD (4 * k + 3) 0#8).toNat

/-- 70_reset_and_hazards.md sections 1 and 2: segment 0 of a launch reads as the loader's words, and no further. That an
offset equal to the length already fails is the strict bound of 20_memory.md section 3, decision D1 (log 14). -/
def Obligations.LaunchedProgramReadable : Prop :=
  ∀ (cfg : Config) (image : List Byte) (input : InputPort) (s : State), boot cfg image input = .ok s →
    ∃ ws, load image = some ws ∧ ∀ off : Word,
      s.mem.read 0#32 off = if off.toNat < ws.length then .ok (ws.getD off.toNat 0#32) else .error .badOff

/-- 70_reset_and_hazards.md section 2, decisions D2, D3 and D18 (log 23): which images are refused and why; every other
image starts the core. -/
def Obligations.BootRefusesExactly : Prop :=
  ∀ (cfg : Config) (image : List Byte) (input : InputPort),
    (boot cfg image input = .error .partialWord ↔ image.length % 4 ≠ 0) ∧
    (boot cfg image input = .error .tooLong ↔ image.length % 4 = 0 ∧ 2 ^ 32 - 1 < image.length / 4) ∧
    (boot cfg image input = .error .overLimit ↔ image.length % 4 = 0 ∧ image.length / 4 ≤ 2 ^ 32 - 1 ∧
      ∃ limit, cfg.maxTotalWords = some limit ∧ limit < image.length / 4) ∧
    ((∃ s, boot cfg image input = .ok s) ↔ image.length % 4 = 0 ∧ image.length / 4 ≤ 2 ^ 32 - 1 ∧
      ∀ limit, cfg.maxTotalWords = some limit → image.length / 4 ≤ limit)

/-- 70_reset_and_hazards.md section 2 (the empty image), the record by decision D5 (log 12): it is accepted, and the first
step faults at pc 0 with no word. -/
def Obligations.EmptyImageFaultsAtOnce : Prop :=
  ∀ (cfg : Config) (input : InputPort), ∃ s t, boot cfg [] input = .ok s ∧ step s = .next t ∧
    t.status = .faulted { code := .pcOutOfRange, pc := 0#32, word := none }

/-! ## The step -/

/-- 40_sequencer.md (the step): a running core executes the instruction decoded from the word at the pc; nothing is added
around `exec`, which advances the pc itself. The second half says it from the instruction's side. -/
def Obligations.StepRunsDecodedInstruction : Prop :=
  (∀ (s : State) (w : Word), s.status = .running → s.mem.read 0#32 s.pc = .ok w → step s = exec (decode w) s) ∧
  ∀ (s : State) (i : Instr), s.status = .running → s.mem.read 0#32 s.pc = .ok (encode i) → step s = exec i s

/-- 40_sequencer.md (fetch check), 60_exceptions.md section 1, decision D5 (log 12): a pc at or beyond segment 0's
length faults with no word, and changes nothing else. -/
def Obligations.FetchPastEndFaults : Prop :=
  ∀ s : State, s.status = .running → s.mem.segLen 0#32 ≤ s.pc →
    ∃ t, step s = .next t ∧ t.status = .faulted { code := .pcOutOfRange, pc := s.pc, word := none } ∧
      SameRegs s t ∧ t.pc = s.pc ∧ SameStore s t ∧ SamePorts s t ∧ t.config = s.config

/-- R86: in Halted or Faulted status no step occurs, so that neither is ever left. -/
def Obligations.NoStepAfterTheEnd : Prop :=
  ∀ s : State, s.status ≠ .running → ∀ t, step s ≠ .next t

/-- 60_exceptions.md section 1, decision D5 (log 12): whichever instruction faults, the step changes nothing but the
status, and the record holds the pc and the word at it, none exactly for the failed fetch. -/
def Obligations.FaultingStepChangesOnlyStatus : Prop :=
  ∀ (s t : State) (r : FaultRecord), step s = .next t → t.status = .faulted r →
    SameRegs s t ∧ t.pc = s.pc ∧ SameStore s t ∧ SamePorts s t ∧ t.config = s.config ∧ r.pc = s.pc ∧
    (r.word = none ↔ r.code = .pcOutOfRange) ∧ ∀ w, r.word = some w → s.mem.read 0#32 s.pc = .ok w

/-- 10_state.md section 4: Halted is entered by the Halt instruction and by nothing else. -/
def Obligations.OnlyHaltHalts : Prop :=
  ∀ s t : State, step s = .next t →
    (t.status = .halted ↔ ∃ w, s.mem.read 0#32 s.pc = .ok w ∧ decode w = .halt)

/-- 40_sequencer.md (pc update and no wrap): where the core runs on, Load Program set the pc to the target's old value
and any other instruction left it one higher, without wrapping. Nothing is said of the pc after Halt (log 10). -/
def Obligations.PcAfterEveryStep : Prop :=
  ∀ s t : State, step s = .next t → t.status = .running →
    ∃ w, s.mem.read 0#32 s.pc = .ok w ∧ (∀ b c, decode w = .loadprog b c → t.pc = s.reg c) ∧
      ((∀ b c, decode w ≠ .loadprog b c) → t.pc.toNat = s.pc.toNat + 1)

/-- 70_reset_and_hazards.md section 4 (progress) and 46_io.md (R108's STALL, log 2): a running core always completes its
step, except an Input whose host never sends; no step is refused. -/
def Obligations.EveryStepCompletesButWaitingInput : Prop :=
  ∀ s : State, s.status = .running →
    (∃ t, step s = .next t) ∨
    (step s = .fault .inputWaits ∧ ∃ w c, s.mem.read 0#32 s.pc = .ok w ∧ decode w = .input c ∧ s.inp.items = [] ∧
      s.inp.tail = .stall)

/-! ## Invariants -/

/-- 10_state.md section 5: every step keeps the invariant `Inv` (slot 0 mapped, free list exact, the store canonical, the
limits respected). -/
def Obligations.StepKeepsStoreInvariant : Prop :=
  ∀ s t : State, Inv s → step s = .next t → Inv t

/-- The reset state meets `Inv`. -/
def Obligations.ResetMeetsStoreInvariant : Prop := Inv State.reset

/-- Every launch within the parameters' range (00_scope.md R5) meets `Inv`. -/
def Obligations.LaunchMeetsStoreInvariant : Prop :=
  ∀ (cfg : Config) (image : List Byte) (input : InputPort) (s : State), cfg.wf →
    boot cfg image input = .ok s → Inv s

/-- 10_state.md section 5 (slot count): N never decreases, and grows only by one, by a Map that finds the free list
empty. -/
def Obligations.SlotCountGrowsOnlyByMap : Prop :=
  ∀ s t : State, step s = .next t →
    t.mem.slots.length = s.mem.slots.length ∨
    (t.mem.slots.length = s.mem.slots.length + 1 ∧ s.mem.free = [] ∧
      ∃ w b c, s.mem.read 0#32 s.pc = .ok w ∧ decode w = .map b c)

/-! ## Frames over all instructions -/

/-- 10_state.md section 2, the table's "writes": an instruction writes no register but its destination. -/
def Obligations.RegisterWriteTable : Prop :=
  ∀ (i : Instr) (s t : State), exec i s = .next t → ∀ r, destReg i ≠ some r → t.reg r = s.reg r

/-- 10_state.md section 2, the table's "reads": a register an instruction neither reads nor writes has no influence on
what it does; its value is carried along. -/
def Obligations.RegisterReadTable : Prop :=
  ∀ (i : Instr) (s : State) (r : Reg) (v : Word), r ∉ sourceRegs i → destReg i ≠ some r →
    (∀ t, exec i s = .next t → exec i (s.setReg r v) = .next (t.setReg r v)) ∧
    (∀ f, exec i s = .fault f → exec i (s.setReg r v) = .fault f)

/-- 10_state.md section 5: only Segment Store, Map, Unmap and Load Program change the segment store. -/
def Obligations.StoreChangedByFourInstructions : Prop :=
  ∀ (i : Instr) (s t : State), (∀ a b c, i ≠ .sstore a b c) → (∀ b c, i ≠ .map b c) → (∀ c, i ≠ .unmap c) →
    (∀ b c, i ≠ .loadprog b c) → exec i s = .next t → SameStore s t

/-- 20_memory.md section 5 and 46_io.md: only Input takes from the input port, at most one item; only Output emits, at
most one byte; no instruction changes the launch parameters or what the host does after its items. -/
def Obligations.PortsChangedByInputAndOutput : Prop :=
  ∀ (i : Instr) (s t : State), exec i s = .next t →
    ((∀ c, i ≠ .input c) → t.inp = s.inp) ∧ ((∀ c, i ≠ .output c) → t.out = s.out) ∧
    (t.inp = s.inp ∨ ∃ v, s.inp.items = v :: t.inp.items ∧ t.inp.tail = s.inp.tail) ∧
    (t.out = s.out ∨ ∃ b, t.out = s.out ++ [b]) ∧ t.config = s.config

/-! ## The segment store -/

/-- 20_memory.md section 3, decision D1 (log 14): when a read and a write fail, and with which error; the bounds check is
strict. -/
def Obligations.AccessFailsExactly : Prop :=
  ∀ (m : Memory) (id off v : Word),
    ((m.read id off = .error .badId ↔ m.slots.length ≤ id.toNat ∨ m.slots[id.toNat]? = some .unmapped) ∧
      (m.read id off = .error .badOff ↔ ∃ g, m.slots[id.toNat]? = some (.mapped g) ∧ g.len.toNat ≤ off.toNat)) ∧
    (m.write id off v = .error .badId ↔ m.read id off = .error .badId) ∧
    (m.write id off v = .error .badOff ↔ m.read id off = .error .badOff)

/-- 20_memory.md section 5: a word read after a write is the written one at its address and the old one at every other;
no length and no slot's state changes. -/
def Obligations.ReadAfterWrite : Prop :=
  ∀ (m m' : Memory) (id off v : Word), m.wf → m.write id off v = .ok m' →
    m'.read id off = .ok v ∧ (∀ id' off', ¬(id' = id ∧ off' = off) → m'.read id' off' = m.read id' off') ∧
    (∀ id', m'.segLen id' = m.segLen id') ∧ (∀ id', m'.valid id' = m.valid id') ∧ m'.free = m.free ∧
    m'.slots.length = m.slots.length

/-- Log 7: two canonical segments of one length that read the same at every offset are the same data. -/
def Obligations.CanonicalSegmentsEqual : Prop :=
  ∀ g g' : Segment, g.wf → g'.wf → g.len = g'.len → (∀ off, off < g.len → g.get off = g'.get off) → g = g'

/-- 10_state.md section 5 (last in, first out): after a segment is freed, the next allocation that fits reuses its ID, and
the free list is as it was before. -/
def Obligations.FreedIdReusedFirst : Prop :=
  ∀ (m m1 : Memory) (cfg : Config) (id len : Word), m.release id = .ok m1 →
    fitsLimit cfg (m1.totalWords + len.toNat) = true →
    ∃ m2, m1.alloc cfg len = some (id, m2) ∧ m2.free = m.free ∧ m2.slots.length = m.slots.length ∧
      ∀ off, off < len → m2.read id off = .ok 0#32

/-- 20_memory.md section 3 and 70_reset_and_hazards.md section 3: a freed ID is invalid for every access at once; every
other ID reads as before. -/
def Obligations.FreedIdInvalidAtOnce : Prop :=
  ∀ (m m1 : Memory) (id : Word), m.release id = .ok m1 →
    (∀ off v, m1.read id off = .error .badId ∧ m1.write id off v = .error .badId) ∧
    ∀ id' off, id' ≠ id → m1.read id' off = m.read id' off

/-- 20_memory.md section 3 (the ID Alloc returns): in a state that meets `Inv` the new ID is not 0, named no live segment,
is below the new N, and names a zero-filled segment of the requested length. -/
def Obligations.AllocReturnsFreshId : Prop :=
  ∀ (s : State) (m : Memory) (len id : Word), Inv s → s.mem.alloc s.config len = some (id, m) →
    id ≠ 0#32 ∧ s.mem.valid id = false ∧ id.toNat < m.slots.length ∧ m.segLen id = len ∧
    (∀ off, off < len → m.read id off = .ok 0#32) ∧ ∀ id' off, id' ≠ id → m.read id' off = s.mem.read id' off

/-- 20_memory.md section 3 and 70_reset_and_hazards.md section 3: after Dup0 of another segment, segment 0 reads as that
segment did, which is itself unchanged, and a later write to either leaves the other alone. -/
def Obligations.ProgramCopyIsIndependent : Prop :=
  ∀ (m m1 : Memory) (cfg : Config) (id : Word), id ≠ 0#32 → m.dup0 cfg id = .ok m1 →
    (∀ off, m1.read 0#32 off = m.read id off) ∧ m1.segLen 0#32 = m.segLen id ∧
    (∀ id' off, id' ≠ 0#32 → m1.read id' off = m.read id' off) ∧
    (∀ m2 off v, m1.write id off v = .ok m2 → ∀ o, m2.read 0#32 o = m1.read 0#32 o) ∧
    ∀ m2 off v, m1.write 0#32 off v = .ok m2 → ∀ o, m2.read id o = m1.read id o

/-- 20_memory.md section 5 (instruction-fetch coherence): a store into the next word of the program is what the next step
executes, with no fence. -/
def Obligations.StoredInstructionRunsNext : Prop :=
  ∀ (s : State) (w : Word) (a b c : Reg), Inv s → s.status = .running → s.mem.read 0#32 s.pc = .ok w →
    decode w = .sstore a b c → s.reg a = 0#32 → s.reg b = s.pc + 1#32 → s.reg b < s.mem.segLen 0#32 →
    ∃ t, step s = .next t ∧ t.pc = s.pc + 1#32 ∧ step t = exec (decode (s.reg c)) t

/-! ## The instructions -/

/-- R91 CMOV: encoding, effect, completion and frame. -/
def Obligations.CmovResult : Prop :=
  (∀ w : Word, w.extractLsb 31 28 = 0#4 → decode w = .cmov (w.extractLsb 8 6) (w.extractLsb 5 3) (w.extractLsb 2 0)) ∧
  ∀ (a b c : Reg) (s : State), ∃ t, exec (.cmov a b c) s = .next t ∧
    t.reg a = (if s.reg c ≠ 0#32 then s.reg b else s.reg a) ∧
    SameRegsBut a s t ∧ t.pc = s.pc + 1#32 ∧ SameStore s t ∧ SamePorts s t ∧ SameStatus s t

/-- R92 LV: encoding, effect, completion and frame. -/
def Obligations.LoadValueResult : Prop :=
  (∀ w : Word, w.extractLsb 31 28 = 13#4 → decode w = .lv (w.extractLsb 27 25) (w.extractLsb 24 0)) ∧
  ∀ (a : Reg) (imm : Imm25) (s : State), ∃ t, exec (.lv a imm) s = .next t ∧ (t.reg a).toNat = imm.toNat ∧
    SameRegsBut a s t ∧ t.pc = s.pc + 1#32 ∧ SameStore s t ∧ SamePorts s t ∧ SameStatus s t

/-- R95 ADD: encoding, effect, completion and frame. -/
def Obligations.AddResult : Prop :=
  (∀ w : Word, w.extractLsb 31 28 = 3#4 → decode w = .add (w.extractLsb 8 6) (w.extractLsb 5 3) (w.extractLsb 2 0)) ∧
  ∀ (a b c : Reg) (s : State), ∃ t, exec (.add a b c) s = .next t ∧
    (t.reg a).toNat = ((s.reg b).toNat + (s.reg c).toNat) % 2 ^ 32 ∧
    SameRegsBut a s t ∧ t.pc = s.pc + 1#32 ∧ SameStore s t ∧ SamePorts s t ∧ SameStatus s t

/-- R96 MUL: encoding, effect, completion and frame. -/
def Obligations.MultiplyResult : Prop :=
  (∀ w : Word, w.extractLsb 31 28 = 4#4 → decode w = .mul (w.extractLsb 8 6) (w.extractLsb 5 3) (w.extractLsb 2 0)) ∧
  ∀ (a b c : Reg) (s : State), ∃ t, exec (.mul a b c) s = .next t ∧
    (t.reg a).toNat = ((s.reg b).toNat * (s.reg c).toNat) % 2 ^ 32 ∧
    SameRegsBut a s t ∧ t.pc = s.pc + 1#32 ∧ SameStore s t ∧ SamePorts s t ∧ SameStatus s t

/-- 43_arithmetic.md DIV, the record and state of a fault by decision D5 (log 12): encoding, quotient and frame where the
divisor is not 0, the fault where it is. -/
def Obligations.DivideResult : Prop :=
  (∀ w : Word, w.extractLsb 31 28 = 5#4 → decode w = .div (w.extractLsb 8 6) (w.extractLsb 5 3) (w.extractLsb 2 0)) ∧
  ∀ (a b c : Reg) (s : State),
    (s.reg c ≠ 0#32 → ∃ t, exec (.div a b c) s = .next t ∧
      (t.reg a).toNat = (s.reg b).toNat / (s.reg c).toNat ∧
      SameRegsBut a s t ∧ t.pc = s.pc + 1#32 ∧ SameStore s t ∧ SamePorts s t ∧ SameStatus s t) ∧
    (s.reg c = 0#32 → ∃ t, exec (.div a b c) s = .next t ∧ FaultsWith .divideByZero s t)

/-- R98 NAND: encoding, effect bit by bit, completion and frame. -/
def Obligations.NandResult : Prop :=
  (∀ w : Word, w.extractLsb 31 28 = 6#4 → decode w = .nand (w.extractLsb 8 6) (w.extractLsb 5 3) (w.extractLsb 2 0)) ∧
  ∀ (a b c : Reg) (s : State), ∃ t, exec (.nand a b c) s = .next t ∧
    (∀ k < 32, (t.reg a).getLsbD k = !((s.reg b).getLsbD k && (s.reg c).getLsbD k)) ∧
    SameRegsBut a s t ∧ t.pc = s.pc + 1#32 ∧ SameStore s t ∧ SamePorts s t ∧ SameStatus s t

/-- 42_segment_access.md SLOAD, strict bounds by decision D1 (log 14), the ID checked first by decision D7 (log 13):
encoding, the loaded word and frame, and the two faults. -/
def Obligations.SegmentLoadResult : Prop :=
  (∀ w : Word, w.extractLsb 31 28 = 1#4 → decode w = .sload (w.extractLsb 8 6) (w.extractLsb 5 3) (w.extractLsb 2 0)) ∧
  ∀ (a b c : Reg) (s : State),
    (∀ g, s.mem.slots[(s.reg b).toNat]? = some (.mapped g) → s.reg c < g.len →
      ∃ t, exec (.sload a b c) s = .next t ∧ s.mem.read (s.reg b) (s.reg c) = .ok (t.reg a) ∧
        SameRegsBut a s t ∧ t.pc = s.pc + 1#32 ∧ SameStore s t ∧ SamePorts s t ∧ SameStatus s t) ∧
    (s.mem.slots.length ≤ (s.reg b).toNat ∨ s.mem.slots[(s.reg b).toNat]? = some .unmapped →
      ∃ t, exec (.sload a b c) s = .next t ∧ FaultsWith .loadBadSegment s t) ∧
    (∀ g, s.mem.slots[(s.reg b).toNat]? = some (.mapped g) → g.len ≤ s.reg c →
      ∃ t, exec (.sload a b c) s = .next t ∧ FaultsWith .loadBadOffset s t)

/-- 42_segment_access.md SSTORE, strict bounds by decision D1 (log 14), the ID checked first by decision D7 (log 13):
encoding, the stored word and frame, and the two faults. The address is `effAddr`, the model's own. -/
def Obligations.SegmentStoreResult : Prop :=
  (∀ w : Word, w.extractLsb 31 28 = 2#4 → decode w = .sstore (w.extractLsb 8 6) (w.extractLsb 5 3) (w.extractLsb 2 0)) ∧
  ∀ (a b c : Reg) (s : State), s.mem.wf →
    (∀ g, s.mem.slots[(s.reg a).toNat]? = some (.mapped g) → s.reg b < g.len →
      ∃ t, exec (.sstore a b c) s = .next t ∧ s.effAddr a b = (s.reg a, s.reg b) ∧
        t.mem.read (s.effAddr a b).1 (s.effAddr a b).2 = .ok (s.reg c) ∧
        (∀ id off, (id, off) ≠ s.effAddr a b → t.mem.read id off = s.mem.read id off) ∧
        (∀ id, t.mem.segLen id = s.mem.segLen id) ∧ t.mem.free = s.mem.free ∧
        t.mem.slots.length = s.mem.slots.length ∧
        SameRegs s t ∧ t.pc = s.pc + 1#32 ∧ SamePorts s t ∧ SameStatus s t) ∧
    (s.mem.slots.length ≤ (s.reg a).toNat ∨ s.mem.slots[(s.reg a).toNat]? = some .unmapped →
      ∃ t, exec (.sstore a b c) s = .next t ∧ FaultsWith .storeBadSegment s t) ∧
    (∀ g, s.mem.slots[(s.reg a).toNat]? = some (.mapped g) → g.len ≤ s.reg b →
      ∃ t, exec (.sstore a b c) s = .next t ∧ FaultsWith .storeBadOffset s t)

/-- 44_control.md HALT: encoding, the status and frame. The pc afterwards is not said (log 10); that the store is kept is
decision D16 (log 11). -/
def Obligations.HaltResult : Prop :=
  (∀ w : Word, w.extractLsb 31 28 = 7#4 → decode w = .halt) ∧
  ∀ s : State, ∃ t, exec .halt s = .next t ∧ t.status = .halted ∧ SameRegs s t ∧ SameStore s t ∧ SamePorts s t ∧
    t.config = s.config

/-- 45_segment_alloc.md MAP, limits by decision D3 (log 3), zero length by D4, the new segment's end by the strict bound
D1 (log 14), the fault's record and state by D5 (log 12): encoding; with room, the ID is the top of the free list or the
old N and names a zero-filled segment with no word at or beyond its length; without, the fault. -/
def Obligations.MapResult : Prop :=
  (∀ w : Word, w.extractLsb 31 28 = 8#4 → decode w = .map (w.extractLsb 5 3) (w.extractLsb 2 0)) ∧
  ∀ (b c : Reg) (s : State), Inv s →
    (fitsLimit s.config (s.mem.totalWords + (s.reg c).toNat) = true →
      (s.mem.free ≠ [] ∨ s.mem.slots.length < s.config.maxSlots) →
      ∃ t, exec (.map b c) s = .next t ∧
        (∀ id rest, s.mem.free = id :: rest →
          t.reg b = id ∧ t.mem.free = rest ∧ t.mem.slots.length = s.mem.slots.length) ∧
        (s.mem.free = [] → (t.reg b).toNat = s.mem.slots.length ∧ t.mem.free = [] ∧
          t.mem.slots.length = s.mem.slots.length + 1) ∧
        (∀ off, t.mem.read (t.reg b) off = if off < s.reg c then .ok 0#32 else .error .badOff) ∧
        (∀ id off, id ≠ t.reg b → t.mem.read id off = s.mem.read id off) ∧
        SameRegsBut b s t ∧ t.pc = s.pc + 1#32 ∧ SamePorts s t ∧ SameStatus s t) ∧
    (fitsLimit s.config (s.mem.totalWords + (s.reg c).toNat) = false ∨
        (s.mem.free = [] ∧ s.config.maxSlots ≤ s.mem.slots.length) →
      ∃ t, exec (.map b c) s = .next t ∧ FaultsWith .allocExhausted s t)

/-- 45_segment_alloc.md UNMAP, fault state by decision D5 (log 12), ID 0 checked first by D7 (log 13): encoding, the
freed slot and frame, and the two faults. -/
def Obligations.UnmapResult : Prop :=
  (∀ w : Word, w.extractLsb 31 28 = 9#4 → decode w = .unmap (w.extractLsb 2 0)) ∧
  ∀ (c : Reg) (s : State),
    (s.reg c ≠ 0#32 → s.mem.valid (s.reg c) = true →
      ∃ t, exec (.unmap c) s = .next t ∧ t.mem.slots[(s.reg c).toNat]? = some .unmapped ∧
        t.mem.free = s.reg c :: s.mem.free ∧ t.mem.slots.length = s.mem.slots.length ∧
        (∀ off, t.mem.read (s.reg c) off = .error .badId) ∧
        (∀ id off, id ≠ s.reg c → t.mem.read id off = s.mem.read id off) ∧
        SameRegs s t ∧ t.pc = s.pc + 1#32 ∧ SamePorts s t ∧ SameStatus s t) ∧
    (s.reg c = 0#32 → ∃ t, exec (.unmap c) s = .next t ∧ FaultsWith .unmapSegmentZero s t) ∧
    (s.reg c ≠ 0#32 → s.mem.slots.length ≤ (s.reg c).toNat ∨ s.mem.slots[(s.reg c).toNat]? = some .unmapped →
      ∃ t, exec (.unmap c) s = .next t ∧ FaultsWith .unmapBadSegment s t)

/-- 46_io.md OUT, the host accepting every byte by decision D12 (log 19), the fault by D5 (log 12): encoding, the
emitted byte and frame, and the fault above 255. -/
def Obligations.OutputResult : Prop :=
  (∀ w : Word, w.extractLsb 31 28 = 10#4 → decode w = .output (w.extractLsb 2 0)) ∧
  ∀ (c : Reg) (s : State),
    ((s.reg c).toNat ≤ 255 → ∃ t b, exec (.output c) s = .next t ∧ t.out = s.out ++ [b] ∧
      b.toNat = (s.reg c).toNat ∧ t.inp = s.inp ∧ SameRegs s t ∧ t.pc = s.pc + 1#32 ∧ SameStore s t ∧
      SameStatus s t) ∧
    (255 < (s.reg c).toNat → ∃ t, exec (.output c) s = .next t ∧ FaultsWith .outputOutOfRange s t)

/-- 46_io.md IN, the port's contract by decision D11 (logs 2, 20), the fault state by D5 (log 12): encoding; an item up
to 255 is taken; end of input gives all ones and takes nothing; an item above 255 faults; a host that never sends leaves
no step. -/
def Obligations.InputResult : Prop :=
  (∀ w : Word, w.extractLsb 31 28 = 11#4 → decode w = .input (w.extractLsb 2 0)) ∧
  ∀ (c : Reg) (s : State),
    (∀ v rest, s.inp.items = v :: rest → v ≤ 255 → ∃ t, exec (.input c) s = .next t ∧ (t.reg c).toNat = v ∧
      t.inp = { items := rest, tail := s.inp.tail } ∧ t.out = s.out ∧ SameRegsBut c s t ∧ t.pc = s.pc + 1#32 ∧
      SameStore s t ∧ SameStatus s t) ∧
    (s.inp.items = [] → s.inp.tail = .eof → ∃ t, exec (.input c) s = .next t ∧ t.reg c = 0xFFFFFFFF#32 ∧
      SamePorts s t ∧ SameRegsBut c s t ∧ t.pc = s.pc + 1#32 ∧ SameStore s t ∧ SameStatus s t) ∧
    (∀ v rest, s.inp.items = v :: rest → 255 < v →
      ∃ t, exec (.input c) s = .next t ∧ FaultsWith .inputOutOfRange s t) ∧
    (s.inp.items = [] → s.inp.tail = .stall → exec (.input c) s = .fault .inputWaits)

/-- 44_control.md LOADPROG with x[B] = 0: encoding, a pure jump. -/
def Obligations.LoadProgramZeroJumps : Prop :=
  (∀ w : Word, w.extractLsb 31 28 = 12#4 → decode w = .loadprog (w.extractLsb 5 3) (w.extractLsb 2 0)) ∧
  ∀ (b c : Reg) (s : State), s.reg b = 0#32 → ∃ t, exec (.loadprog b c) s = .next t ∧ t.pc = s.reg c ∧
    SameRegs s t ∧ SameStore s t ∧ SamePorts s t ∧ SameStatus s t

/-- 44_control.md LOADPROG with x[B] ≠ 0, limit by decision D3 (log 3), fault state by D5 (log 12), fault order by D7
(log 13): segment 0 becomes a copy and the pc the target in one step; the two faults. -/
def Obligations.LoadProgramReplaces : Prop :=
  ∀ (b c : Reg) (s : State), Inv s → s.reg b ≠ 0#32 →
    (∀ g, s.mem.slots[(s.reg b).toNat]? = some (.mapped g) →
      fitsLimit s.config (s.mem.totalWords - (s.mem.segLen 0#32).toNat + g.len.toNat) = true →
      ∃ t, exec (.loadprog b c) s = .next t ∧ t.pc = s.reg c ∧
        (∀ off, t.mem.read 0#32 off = s.mem.read (s.reg b) off) ∧ t.mem.segLen 0#32 = g.len ∧
        (∀ id off, id ≠ 0#32 → t.mem.read id off = s.mem.read id off) ∧ t.mem.free = s.mem.free ∧
        t.mem.slots.length = s.mem.slots.length ∧ SameRegs s t ∧ SamePorts s t ∧ SameStatus s t) ∧
    (s.mem.slots.length ≤ (s.reg b).toNat ∨ s.mem.slots[(s.reg b).toNat]? = some .unmapped →
      ∃ t, exec (.loadprog b c) s = .next t ∧ FaultsWith .loadprogBadSegment s t) ∧
    (∀ g, s.mem.slots[(s.reg b).toNat]? = some (.mapped g) →
      fitsLimit s.config (s.mem.totalWords - (s.mem.segLen 0#32).toNat + g.len.toNat) = false →
      ∃ t, exec (.loadprog b c) s = .next t ∧ FaultsWith .allocExhausted s t)

/-- 30_encoding.md section 3 (invalid opcodes), record by decision D5 (log 12): opcodes 14 and 15 decode to the INVALID
constructors whatever their other bits are, and executing one raises INVALID_OPCODE and changes nothing else. -/
def Obligations.InvalidOpcodeFaults : Prop :=
  (∀ w : Word, w.extractLsb 31 28 = 14#4 → decode w = .invalid14) ∧
  (∀ w : Word, w.extractLsb 31 28 = 15#4 → decode w = .invalid15) ∧
  ∀ (i : Instr) (s : State), i = .invalid14 ∨ i = .invalid15 →
    ∃ t, exec i s = .next t ∧ FaultsWith .invalidOpcode s t

/-! ## Idioms and what the host sees -/

/-- 44_control.md (control-transfer idioms): a Conditional Move into the target register and a Load Program of ID 0 are a
conditional jump to one of two held targets, leaving the program as it is. -/
def Obligations.ConditionalJumpIdiom : Prop :=
  ∀ (s : State) (rT rT1 rK rZ : Reg), rT ≠ rZ → s.reg rZ = 0#32 →
    ∃ t u, exec (.cmov rT rT1 rK) s = .next t ∧ exec (.loadprog rZ rT) t = .next u ∧
      u.pc = (if s.reg rK ≠ 0#32 then s.reg rT1 else s.reg rT) ∧ SameStore s u ∧ SamePorts s u ∧ SameStatus s u

/-- 60_exceptions.md section 1 and 40_sequencer.md (end of a run), decision D17 (log 17): the exit status is 0 on Halted
and nonzero on Faulted, and there is one, with the bytes emitted, exactly when the run has ended. -/
def Obligations.ExitStatusZeroExactlyOnHalt : Prop :=
  ∀ s : State, (exitStatus s = some 0 ↔ s.status = .halted) ∧
    (∀ r, s.status = .faulted r → ∃ n, exitStatus s = some n ∧ n ≠ 0) ∧
    (exitStatus s = none ↔ s.status = .running) ∧
    (s.status = .running → observation s = none) ∧ (s.status ≠ .running → observation s = some (s.status, s.out))
end

