-- ==== Sys2Proof/Laws/Codec.lean ====
section
/-! SUPPORT. The bits of the codec (spec/00_scope.md R8) and the opcode of an encoded instruction (30_encoding.md R62). -/

namespace Sys2Proof

/-- The low ones of a mask. -/
theorem lowMask_getLsbD (width i : Nat) (h : i < 32) : (lowMask width).getLsbD i = decide (i < width) := by
  simp only [lowMask, BitVec.getLsbD_ofNat, h, decide_true, Bool.true_and, Nat.testBit_two_pow_sub_one]

/-- R8 `set_field`, bit by bit. -/
theorem getLsbD_setField (w v : Word) (width lsb i : Nat) (h : i < 32) :
    (setField w width lsb v).getLsbD i = if lsb ≤ i ∧ i < lsb + width then v.getLsbD (i - lsb) else w.getLsbD i := by
  have hi : i - lsb < 32 := by omega
  simp only [setField, BitVec.getLsbD_or, BitVec.getLsbD_and, BitVec.getLsbD_not, BitVec.getLsbD_shiftLeft, h,
    lowMask_getLsbD _ _ hi]
  by_cases h1 : lsb ≤ i
  · have e : (i - lsb < width) = (i < lsb + width) := by simp only [eq_iff_iff]; omega
    by_cases h2 : i < lsb + width <;> simp [h1, e, h2, Nat.not_lt.mpr h1]
  · simp [h1, Nat.lt_of_not_le h1]

/-- R8 `get_field`, bit by bit. -/
theorem getLsbD_getField (w : Word) (width lsb i : Nat) :
    (getField w width lsb).getLsbD i = (decide (i < width) && w.getLsbD (lsb + i)) := by
  simp [getField]

/-- A field read back where it was written. -/
theorem getField_setField_same {width lsb : Nat} (w : Word) (v : BitVec width) (h : width + lsb ≤ 32) :
    getField (setField w width lsb (zext32 v)) width lsb = v := by
  apply BitVec.eq_of_getLsbD_eq
  intro i hi
  rw [getLsbD_getField, getLsbD_setField _ _ _ _ _ (by omega)]
  simp only [hi, decide_true, Bool.true_and, Nat.le_add_right, true_and, Nat.add_lt_add_iff_left, if_true,
    Nat.add_sub_cancel_left, zext32, BitVec.getLsbD_setWidth]
  simp; omega

/-- A field is not changed by writing another. -/
theorem getField_setField_other {width lsb width' lsb' : Nat} (w v : Word)
    (h : width + lsb ≤ 32) (hd : lsb + width ≤ lsb' ∨ lsb' + width' ≤ lsb) :
    getField (setField w width' lsb' v) width lsb = getField w width lsb := by
  apply BitVec.eq_of_getLsbD_eq
  intro i hi
  rw [getLsbD_getField, getLsbD_getField, getLsbD_setField _ _ _ _ _ (by omega)]
  rw [if_neg (by omega)]

/-- R74: the opcode field of a three-register word. -/
theorem opcode_encR3 (op : BitVec 4) (a b c : Reg) : getField (encR3 op a b c) 4 28 = op := by
  unfold encR3
  rw [getField_setField_other _ _ (by omega) (by omega), getField_setField_other _ _ (by omega) (by omega),
    getField_setField_other _ _ (by omega) (by omega), getField_setField_same _ _ (by omega)]

/-- R75: the opcode field of an immediate-load word. -/
theorem opcode_encImm (a : Reg) (imm : Imm25) : getField (encImm a imm) 4 28 = 13#4 := by
  unfold encImm
  rw [getField_setField_other _ _ (by omega) (by omega), getField_setField_other _ _ (by omega) (by omega)]
  exact getField_setField_same 0 13#4 (by omega)

/-! ## The opcode map, one lemma an opcode (R69), so that `Fields.select` is not unfolded again -/

theorem Fields.select_cmov (d : Fields) (h : d.op = 0#4) : d.select = .cmov d.a d.b d.c := by
  unfold Fields.select; rw [h]; rfl
theorem Fields.select_sload (d : Fields) (h : d.op = 1#4) : d.select = .sload d.a d.b d.c := by
  unfold Fields.select; rw [h]; rfl
theorem Fields.select_sstore (d : Fields) (h : d.op = 2#4) : d.select = .sstore d.a d.b d.c := by
  unfold Fields.select; rw [h]; rfl
theorem Fields.select_add (d : Fields) (h : d.op = 3#4) : d.select = .add d.a d.b d.c := by
  unfold Fields.select; rw [h]; rfl
theorem Fields.select_mul (d : Fields) (h : d.op = 4#4) : d.select = .mul d.a d.b d.c := by
  unfold Fields.select; rw [h]; rfl
theorem Fields.select_div (d : Fields) (h : d.op = 5#4) : d.select = .div d.a d.b d.c := by
  unfold Fields.select; rw [h]; rfl
theorem Fields.select_nand (d : Fields) (h : d.op = 6#4) : d.select = .nand d.a d.b d.c := by
  unfold Fields.select; rw [h]; rfl
theorem Fields.select_halt (d : Fields) (h : d.op = 7#4) : d.select = .halt := by
  unfold Fields.select; rw [h]; rfl
theorem Fields.select_map (d : Fields) (h : d.op = 8#4) : d.select = .map d.b d.c := by
  unfold Fields.select; rw [h]; rfl
theorem Fields.select_unmap (d : Fields) (h : d.op = 9#4) : d.select = .unmap d.c := by
  unfold Fields.select; rw [h]; rfl
theorem Fields.select_output (d : Fields) (h : d.op = 10#4) : d.select = .output d.c := by
  unfold Fields.select; rw [h]; rfl
theorem Fields.select_input (d : Fields) (h : d.op = 11#4) : d.select = .input d.c := by
  unfold Fields.select; rw [h]; rfl
theorem Fields.select_loadprog (d : Fields) (h : d.op = 12#4) : d.select = .loadprog d.b d.c := by
  unfold Fields.select; rw [h]; rfl
theorem Fields.select_lv (d : Fields) (h : d.op = 13#4) : d.select = .lv d.ia d.imm := by
  unfold Fields.select; rw [h]; rfl
theorem Fields.select_invalid14 (d : Fields) (h : d.op = 14#4) : d.select = .invalid14 := by
  unfold Fields.select; rw [h]; rfl
theorem Fields.select_invalid15 (d : Fields) (h : d.op = 15#4) : d.select = .invalid15 := by
  unfold Fields.select; rw [h]; rfl

end Sys2Proof
end

