-- ==== Sys2Proof/Laws/Memory.lean ====
section
/-! SUPPORT. The words of one segment: read after write, and that every operation of the store keeps the canonical form
`Memory.wf` (log 7). -/

namespace Sys2Proof.Machine

/-! ## Cells -/

/-- The cells that start past an offset hold nothing at it. -/
theorem cellsGet_of_forall_lt {cells : List (Nat × Word)} {off : Nat} (h : ∀ p ∈ cells, off < p.1) :
    cellsGet cells off = unlistedWord := by
  induction cells with
  | nil => rfl
  | cons p rest ih =>
    obtain ⟨k, v⟩ := p
    have hk : off < k := h (k, v) (by simp)
    simp only [cellsGet, Nat.ne_of_lt hk, if_false]
    exact ih fun q hq => h q (by simp [hq])

/-- Every entry after a write is an old one or the written one, which is never `unlistedWord`. -/
theorem mem_cellsSet {cells : List (Nat × Word)} {off : Nat} {v : Word} {p : Nat × Word}
    (h : p ∈ cellsSet cells off v) : p ∈ cells ∨ (p = (off, v) ∧ v ≠ unlistedWord) := by
  induction cells with
  | nil => simp only [cellsSet] at h; split at h <;> simp_all
  | cons q rest ih =>
    obtain ⟨k, w⟩ := q
    simp only [cellsSet] at h
    split at h
    · split at h <;> simp_all; tauto
    · split at h
      · split at h <;> simp_all; tauto
      · simp only [List.mem_cons] at h
        rcases h with h | h
        · exact .inl (by simp [h])
        · rcases ih h with h | h
          · exact .inl (by simp [h])
          · exact .inr h

/-- A write keeps the offsets strictly rising. -/
theorem cellsSet_pairwise {cells : List (Nat × Word)} (off : Nat) (v : Word)
    (h : cells.Pairwise fun p q => p.1 < q.1) : (cellsSet cells off v).Pairwise fun p q => p.1 < q.1 := by
  induction cells with
  | nil => simp only [cellsSet]; split <;> simp
  | cons q rest ih =>
    obtain ⟨k, w⟩ := q
    obtain ⟨hk, hr⟩ := List.pairwise_cons.mp h
    simp only [cellsSet]
    split
    · next hlt =>
      split
      · exact h
      · refine List.pairwise_cons.mpr ⟨fun p hp => ?_, h⟩
        rcases List.mem_cons.mp hp with rfl | hp
        · exact hlt
        · exact Nat.lt_trans hlt (hk p hp)
    · split
      · next heq =>
        subst heq
        split
        · exact hr
        · exact List.pairwise_cons.mpr ⟨hk, hr⟩
      · refine List.pairwise_cons.mpr ⟨fun p hp => ?_, ih hr⟩
        rcases mem_cellsSet hp with hp | ⟨rfl, -⟩
        · exact hk p hp
        · simp only; omega

/-- A word read after a write: the written word at its offset, the old word elsewhere. -/
theorem cellsGet_cellsSet {cells : List (Nat × Word)} (off : Nat) (v : Word) (o : Nat)
    (h : cells.Pairwise fun p q => p.1 < q.1) :
    cellsGet (cellsSet cells off v) o = if o = off then v else cellsGet cells o := by
  induction cells with
  | nil => simp only [cellsSet]; split <;> simp_all [cellsGet]
  | cons q rest ih =>
    obtain ⟨k, w⟩ := q
    obtain ⟨hk, hr⟩ := List.pairwise_cons.mp h
    have absent : ∀ n ≤ k, cellsGet rest n = unlistedWord := fun n hn =>
      cellsGet_of_forall_lt fun p hp => Nat.lt_of_le_of_lt hn (hk p hp)
    simp only [cellsSet]
    split
    · next hlt =>
      split
      · next hv =>
        subst hv
        split
        · next ho => subst ho; simp [cellsGet, Nat.ne_of_lt hlt, absent o (Nat.le_of_lt hlt)]
        · rfl
      · simp [cellsGet]
    · split
      · next heq =>
        subst heq
        split
        · next hv =>
          subst hv
          split
          · next ho => subst ho; exact absent o (Nat.le_refl _)
          · next ho => simp [cellsGet, ho]
        · by_cases ho : o = off <;> simp [cellsGet, ho]
      · next hne =>
        by_cases ho : o = k
        · subst ho
          have : o ≠ off := fun e => hne e.symm
          simp [cellsGet, this]
        · simp [cellsGet, ho, ih hr]

/-- The canonical list of a sequence of words: entries in their range and not `unlistedWord`. -/
theorem mem_cellsOfWords {ws : List Word} {off : Nat} {p : Nat × Word} (h : p ∈ cellsOfWords off ws) :
    off ≤ p.1 ∧ p.1 < off + ws.length ∧ p.2 ≠ unlistedWord := by
  induction ws generalizing off with
  | nil => simp [cellsOfWords] at h
  | cons w ws ih =>
    simp only [cellsOfWords] at h
    split at h
    · obtain ⟨h1, h2, h3⟩ := ih h
      simp only [List.length_cons]
      exact ⟨by omega, by omega, h3⟩
    · next hw =>
      rcases List.mem_cons.mp h with rfl | h
      · exact ⟨Nat.le_refl _, by simp, hw⟩
      · obtain ⟨h1, h2, h3⟩ := ih h
        simp only [List.length_cons]
        exact ⟨by omega, by omega, h3⟩

/-- The canonical list of a sequence of words has strictly rising offsets. -/
theorem cellsOfWords_pairwise (ws : List Word) (off : Nat) :
    (cellsOfWords off ws).Pairwise fun p q => p.1 < q.1 := by
  induction ws generalizing off with
  | nil => simp [cellsOfWords]
  | cons w ws ih =>
    simp only [cellsOfWords]
    split
    · exact ih _
    · refine List.pairwise_cons.mpr ⟨fun p hp => ?_, ih _⟩
      have := (mem_cellsOfWords hp).1
      simp only; omega

/-! ## Segments -/

/-- A zero-filled segment is canonical. -/
theorem Segment.zeroed_wf (len : Word) : (Segment.zeroed len).wf := by simp [Segment.wf, Segment.zeroed]

/-- Every word of a zero-filled segment reads 0 (R48). -/
@[simp] theorem Segment.zeroed_get (len off : Word) : (Segment.zeroed len).get off = 0#32 := rfl

@[simp] theorem Segment.zeroed_len (len : Word) : (Segment.zeroed len).len = len := rfl

@[simp] theorem Segment.set_len (g : Segment) (off v : Word) : (g.set off v).len = g.len := rfl

/-- A write below the length keeps a segment canonical. -/
theorem Segment.set_wf {g : Segment} {off : Word} (v : Word) (h : g.wf) (hoff : off < g.len) : (g.set off v).wf := by
  refine ⟨cellsSet_pairwise _ _ h.1, fun p hp => ?_⟩
  rcases mem_cellsSet hp with hp | ⟨rfl, hv⟩
  · exact h.2 p hp
  · exact ⟨BitVec.lt_def.mp hoff, hv⟩

/-- Read after write in one canonical segment. -/
theorem Segment.get_set {g : Segment} (off v o : Word) (h : g.wf) :
    (g.set off v).get o = if o = off then v else g.get o := by
  simp only [Segment.get, Segment.set, cellsGet_cellsSet _ _ _ h.1, BitVec.toNat_inj]

/-- The loader's segment is canonical when its length fits a Word (R133). -/
theorem Segment.ofWords_wf {ws : List Word} (h : ws.length < 2 ^ 32) : (Segment.ofWords ws).wf := by
  refine ⟨cellsOfWords_pairwise ws 0, fun p hp => ?_⟩
  have := mem_cellsOfWords hp
  simp only [Segment.ofWords, BitVec.toNat_ofNat, Nat.mod_eq_of_lt h]
  exact ⟨by omega, this.2.2⟩

/-! ## The store -/

/-- A mapped slot is canonical when its segment is. -/
theorem Slot.wf_mapped {g : Segment} : (Slot.mapped g).wf = true ↔ g.wf := decide_eq_true_iff

/-- A slot found in a canonical store is canonical. -/
theorem Memory.segment?_wf {m : Memory} {id : Word} {g : Segment} (h : m.wf) (hg : m.segment? id = some g) : g.wf := by
  unfold Memory.segment? at hg
  split at hg <;> simp_all
  next heq => exact Slot.wf_mapped.mp (h _ (List.mem_of_getElem? heq))

/-- A slot replaced by a canonical one keeps the store canonical. -/
theorem Memory.setSlots_wf {m : Memory} (k : Nat) {sl : Slot} (free : List Word) (h : m.wf) (hsl : sl.wf = true) :
    Memory.wf { slots := m.slots.set k sl, free := free } := by
  intro x hx
  rcases List.mem_or_eq_of_mem_set hx with hx | rfl
  · exact h x hx
  · exact hsl

/-- WRITE keeps the canonical form. -/
theorem Memory.write_wf {m m' : Memory} {id off v : Word} (h : m.wf) (hw : m.write id off v = .ok m') : m'.wf := by
  unfold Memory.write at hw
  split at hw
  · cases hw
  · next g hg =>
    split at hw
    · cases hw
    · next hoff =>
      cases hw
      exact Memory.setSlots_wf _ _ h
        (Slot.wf_mapped.mpr (Segment.set_wf v (Memory.segment?_wf h hg) (BitVec.not_le.mp hoff)))

/-- ALLOC keeps the canonical form. -/
theorem Memory.alloc_wf {m m' : Memory} {cfg : Config} {len id : Word} (h : m.wf)
    (ha : m.alloc cfg len = some (id, m')) : m'.wf := by
  unfold Memory.alloc at ha
  split at ha
  · split at ha
    · cases ha
      exact Memory.setSlots_wf _ _ h (Slot.wf_mapped.mpr (Segment.zeroed_wf len))
    · split at ha
      · cases ha
      · cases ha
        intro x hx
        rcases List.mem_append.mp hx with hx | hx
        · exact h x hx
        · simp only [List.mem_singleton] at hx; subst hx; exact Slot.wf_mapped.mpr (Segment.zeroed_wf len)
  · cases ha

/-- FREE keeps the canonical form. -/
theorem Memory.release_wf {m m' : Memory} {id : Word} (h : m.wf) (hr : m.release id = .ok m') : m'.wf := by
  unfold Memory.release at hr
  split at hr
  · cases hr
  · split at hr
    · cases hr; exact Memory.setSlots_wf _ _ h rfl
    · cases hr

/-- DUP0 keeps the canonical form. -/
theorem Memory.dup0_wf {m m' : Memory} {cfg : Config} {id : Word} (h : m.wf) (hd : m.dup0 cfg id = .ok m') : m'.wf := by
  unfold Memory.dup0 at hd
  split at hd
  · cases hd; exact h
  · split at hd
    · cases hd
    · next g hg =>
      split at hd
      · cases hd
        exact Memory.setSlots_wf _ _ h (Slot.wf_mapped.mpr (Memory.segment?_wf h hg))
      · cases hd

/-- Placing the host's word keeps the canonical form. -/
theorem Memory.placeWord_wf {m : Memory} {pc : Word} (w : Word) (h : m.wf) (hpc : pc ≠ allOnes) :
    (m.placeWord pc w).wf := by
  obtain ⟨g, hg, hgwf⟩ : ∃ g, g = (m.segment? 0#32).getD (Segment.zeroed 0#32) ∧ g.wf := by
    refine ⟨_, rfl, ?_⟩
    cases hs : m.segment? 0#32 with
    | none => exact Segment.zeroed_wf 0#32
    | some g => exact Memory.segment?_wf h hs
  have hpc' : pc < pc + 1 := by
    have : pc.toNat ≠ 4294967295 := fun e => hpc (BitVec.eq_of_toNat_eq (by simpa using e))
    have := pc.isLt
    rw [BitVec.lt_def, BitVec.toNat_add]
    simp; omega
  have key : ({ g with len := if g.len ≤ pc then pc + 1 else g.len } : Segment).wf ∧
      pc < (if g.len ≤ pc then pc + 1 else g.len) := by
    split
    · next hle =>
      refine ⟨⟨hgwf.1, fun p hp => ⟨?_, (hgwf.2 p hp).2⟩⟩, hpc'⟩
      have h1 := (hgwf.2 p hp).1
      have h2 := BitVec.le_def.mp hle
      have h3 := BitVec.lt_def.mp hpc'
      simp only; omega
    · next hlt => exact ⟨hgwf, BitVec.not_le.mp hlt⟩
  have hset := Segment.set_wf w key.1 key.2
  unfold Memory.placeWord
  rw [← hg]
  simp only
  split
  · intro x hx; simp only [List.mem_singleton] at hx; subst hx; exact Slot.wf_mapped.mpr hset
  · next hsl =>
    intro x hx
    rcases List.mem_cons.mp hx with rfl | hx
    · exact Slot.wf_mapped.mpr hset
    · exact h x (by simp [hsl, hx])

/-- The reset state's store is canonical. -/
theorem reset_mem_wf : State.reset.mem.wf := by decide

/-- The store of every launch is canonical when the image fits (R133). -/
theorem launch_mem_wf (cfg : Config) {ws : List Word} (input : InputPort) (h : ws.length < 2 ^ 32) :
    (launch cfg ws input).mem.wf := by
  intro x hx
  simp only [launch, List.mem_singleton] at hx
  subst hx
  exact Slot.wf_mapped.mpr (Segment.ofWords_wf h)

end Sys2Proof.Machine
end

