-- ==== Sys2Proof/Laws/State.lean ====
section
/-! SUPPORT. One lemma per field of State and named update, and one for the register read after each. -/

namespace Sys2Proof.Machine.State

variable (s : State)

@[simp] theorem setReg_pc (r : Reg) (v : Word) : (s.setReg r v).pc = s.pc := rfl
@[simp] theorem setReg_mem (r : Reg) (v : Word) : (s.setReg r v).mem = s.mem := rfl
@[simp] theorem setReg_status (r : Reg) (v : Word) : (s.setReg r v).status = s.status := rfl
@[simp] theorem setReg_inp (r : Reg) (v : Word) : (s.setReg r v).inp = s.inp := rfl
@[simp] theorem setReg_out (r : Reg) (v : Word) : (s.setReg r v).out = s.out := rfl
@[simp] theorem setReg_config (r : Reg) (v : Word) : (s.setReg r v).config = s.config := rfl

@[simp] theorem advance_x : (s.advance).x = s.x := rfl
@[simp] theorem advance_pc : (s.advance).pc = s.pc + 1 := rfl
@[simp] theorem advance_mem : (s.advance).mem = s.mem := rfl
@[simp] theorem advance_status : (s.advance).status = s.status := rfl
@[simp] theorem advance_inp : (s.advance).inp = s.inp := rfl
@[simp] theorem advance_out : (s.advance).out = s.out := rfl
@[simp] theorem advance_config : (s.advance).config = s.config := rfl
@[simp] theorem reg_advance (d : Reg) : (s.advance).reg d = s.reg d := rfl

@[simp] theorem jump_x (v : Word) : (s.jump v).x = s.x := rfl
@[simp] theorem jump_pc (v : Word) : (s.jump v).pc = v := rfl
@[simp] theorem jump_mem (v : Word) : (s.jump v).mem = s.mem := rfl
@[simp] theorem jump_status (v : Word) : (s.jump v).status = s.status := rfl
@[simp] theorem jump_inp (v : Word) : (s.jump v).inp = s.inp := rfl
@[simp] theorem jump_out (v : Word) : (s.jump v).out = s.out := rfl
@[simp] theorem jump_config (v : Word) : (s.jump v).config = s.config := rfl
@[simp] theorem reg_jump (v : Word) (d : Reg) : (s.jump v).reg d = s.reg d := rfl

@[simp] theorem setMem_x (m : Memory) : (s.setMem m).x = s.x := rfl
@[simp] theorem setMem_pc (m : Memory) : (s.setMem m).pc = s.pc := rfl
@[simp] theorem setMem_mem (m : Memory) : (s.setMem m).mem = m := rfl
@[simp] theorem setMem_status (m : Memory) : (s.setMem m).status = s.status := rfl
@[simp] theorem setMem_inp (m : Memory) : (s.setMem m).inp = s.inp := rfl
@[simp] theorem setMem_out (m : Memory) : (s.setMem m).out = s.out := rfl
@[simp] theorem setMem_config (m : Memory) : (s.setMem m).config = s.config := rfl
@[simp] theorem reg_setMem (m : Memory) (d : Reg) : (s.setMem m).reg d = s.reg d := rfl

@[simp] theorem setStatus_x (st : RunStatus) : (s.setStatus st).x = s.x := rfl
@[simp] theorem setStatus_pc (st : RunStatus) : (s.setStatus st).pc = s.pc := rfl
@[simp] theorem setStatus_mem (st : RunStatus) : (s.setStatus st).mem = s.mem := rfl
@[simp] theorem setStatus_status (st : RunStatus) : (s.setStatus st).status = st := rfl
@[simp] theorem setStatus_inp (st : RunStatus) : (s.setStatus st).inp = s.inp := rfl
@[simp] theorem setStatus_out (st : RunStatus) : (s.setStatus st).out = s.out := rfl
@[simp] theorem setStatus_config (st : RunStatus) : (s.setStatus st).config = s.config := rfl
@[simp] theorem reg_setStatus (st : RunStatus) (d : Reg) : (s.setStatus st).reg d = s.reg d := rfl

@[simp] theorem setInp_x (p : InputPort) : (s.setInp p).x = s.x := rfl
@[simp] theorem setInp_pc (p : InputPort) : (s.setInp p).pc = s.pc := rfl
@[simp] theorem setInp_mem (p : InputPort) : (s.setInp p).mem = s.mem := rfl
@[simp] theorem setInp_status (p : InputPort) : (s.setInp p).status = s.status := rfl
@[simp] theorem setInp_inp (p : InputPort) : (s.setInp p).inp = p := rfl
@[simp] theorem setInp_out (p : InputPort) : (s.setInp p).out = s.out := rfl
@[simp] theorem setInp_config (p : InputPort) : (s.setInp p).config = s.config := rfl
@[simp] theorem reg_setInp (p : InputPort) (d : Reg) : (s.setInp p).reg d = s.reg d := rfl

@[simp] theorem emit_x (b : Byte) : (s.emit b).x = s.x := rfl
@[simp] theorem emit_pc (b : Byte) : (s.emit b).pc = s.pc := rfl
@[simp] theorem emit_mem (b : Byte) : (s.emit b).mem = s.mem := rfl
@[simp] theorem emit_status (b : Byte) : (s.emit b).status = s.status := rfl
@[simp] theorem emit_inp (b : Byte) : (s.emit b).inp = s.inp := rfl
@[simp] theorem emit_out (b : Byte) : (s.emit b).out = s.out ++ [b] := rfl
@[simp] theorem emit_config (b : Byte) : (s.emit b).config = s.config := rfl
@[simp] theorem reg_emit (b : Byte) (d : Reg) : (s.emit b).reg d = s.reg d := rfl

@[simp] theorem takeFault_x (k : FaultCode) : (s.takeFault k).x = s.x := rfl
@[simp] theorem takeFault_pc (k : FaultCode) : (s.takeFault k).pc = s.pc := rfl
@[simp] theorem takeFault_mem (k : FaultCode) : (s.takeFault k).mem = s.mem := rfl
@[simp] theorem takeFault_status (k : FaultCode) : (s.takeFault k).status = .faulted (s.faultRecord k) := rfl
@[simp] theorem takeFault_inp (k : FaultCode) : (s.takeFault k).inp = s.inp := rfl
@[simp] theorem takeFault_out (k : FaultCode) : (s.takeFault k).out = s.out := rfl
@[simp] theorem takeFault_config (k : FaultCode) : (s.takeFault k).config = s.config := rfl
@[simp] theorem reg_takeFault (k : FaultCode) (d : Reg) : (s.takeFault k).reg d = s.reg d := rfl

/-- Reading a register after a register write (R10). -/
@[simp] theorem reg_setReg (r d : Reg) (v : Word) : (s.setReg r v).reg d = if d = r then v else s.reg d := by
  simp only [setReg, reg, Vector.getElem_set]
  by_cases h : r = d
  · simp [h]
  · have hn : r.toNat ≠ d.toNat := fun e => h (BitVec.eq_of_toNat_eq e)
    simp [hn, Ne.symm h]

/-- Two states with the same fields are the same state; registers are compared by reading them. -/
theorem ext_of_reg (t : State) (hx : ∀ r : Reg, t.reg r = s.reg r) (hpc : t.pc = s.pc) (hm : t.mem = s.mem)
    (hst : t.status = s.status) (hi : t.inp = s.inp) (ho : t.out = s.out) (hc : t.config = s.config) : t = s := by
  have hv : t.x = s.x := by
    apply Vector.ext
    intro i hi
    have h := hx (BitVec.ofNat 3 i)
    have e : (BitVec.ofNat 3 i).toNat = i := by simp; omega
    simpa [reg, e] using h
  cases s; cases t; simp_all

/-- Writes to two registers commute. -/
theorem setReg_comm (a b : Reg) (u v : Word) (h : a ≠ b) :
    (s.setReg a u).setReg b v = (s.setReg b v).setReg a u := by
  apply ext_of_reg
  · intro r
    simp only [reg_setReg]
    split
    · next e => subst e; simp [Ne.symm h]
    · rfl
  all_goals rfl

/-- The reset state's registers read 0 (R126). -/
@[simp] theorem reg_reset (r : Reg) : State.reset.reg r = 0#32 := by simp [reset, reg]

end Sys2Proof.Machine.State
end

