-- ==== Sys2Proof/Laws/Ops.lean ====
section
/-! SUPPORT. One lemma per shared operation that says everything it can do, to be cited instead of unfolding it: the
segment-store controller (spec/20_memory.md R44 to R52), the ports (46_io.md) and the operand forms. -/

namespace Sys2Proof.Machine

/-! ## Finding a segment -/

/-- R45: a segment is found exactly when its slot is mapped. -/
theorem Memory.segment?_eq_some {m : Memory} {id : Word} {g : Segment} :
    m.segment? id = some g ↔ m.slots[id.toNat]? = some (.mapped g) := by
  unfold Memory.segment?
  split <;> simp_all

/-- R45: no segment is found exactly when the ID is out of range or its slot is unmapped. -/
theorem Memory.segment?_eq_none {m : Memory} {id : Word} :
    m.segment? id = none ↔ m.slots.length ≤ id.toNat ∨ m.slots[id.toNat]? = some .unmapped := by
  unfold Memory.segment?
  split <;> simp_all
  next heq => exact Nat.lt_of_not_le fun hle => by simp [List.getElem?_eq_none hle] at heq

/-- R45 `Valid`. -/
theorem Memory.valid_iff {m : Memory} {id : Word} :
    m.valid id = true ↔ ∃ g, m.slots[id.toNat]? = some (.mapped g) := by
  simp [Memory.valid, Option.isSome_iff_exists, Memory.segment?_eq_some]

/-- A valid ID is below N. -/
theorem Memory.lt_of_segment? {m : Memory} {id : Word} {g : Segment} (h : m.segment? id = some g) :
    id.toNat < m.slots.length := by
  have h := Memory.segment?_eq_some.mp h
  exact (List.getElem?_eq_some_iff.mp h).1

/-- The segment found after one slot is replaced. -/
theorem Memory.segment?_set {m : Memory} {free : List Word} {id k : Word} {sl : Slot} (hk : k.toNat < m.slots.length) :
    Memory.segment? { slots := m.slots.set k.toNat sl, free := free } id =
      if id = k then (match sl with | .mapped g => some g | .unmapped => none) else m.segment? id := by
  unfold Memory.segment?
  by_cases h : id = k
  · subst h; cases sl <;> simp [hk]
  · have hn : k.toNat ≠ id.toNat := fun e => h (BitVec.eq_of_toNat_eq e.symm)
    simp [hn, h]

/-! ## The requests -/

/-- R46. -/
theorem Memory.read_cases (m : Memory) (id off : Word) :
    (m.segment? id = none ∧ m.read id off = .error .badId) ∨
    (∃ g, m.segment? id = some g ∧ g.len ≤ off ∧ m.read id off = .error .badOff) ∨
    (∃ g, m.segment? id = some g ∧ off < g.len ∧ m.read id off = .ok (g.get off)) := by
  unfold Memory.read
  cases h : m.segment? id with
  | none => simp
  | some g =>
    by_cases hle : g.len ≤ off
    · simp [hle]
    · simp [hle, BitVec.not_le.mp hle]

/-- R47. -/
theorem Memory.write_cases (m : Memory) (id off v : Word) :
    (m.segment? id = none ∧ m.write id off v = .error .badId) ∨
    (∃ g, m.segment? id = some g ∧ g.len ≤ off ∧ m.write id off v = .error .badOff) ∨
    (∃ g, m.segment? id = some g ∧ off < g.len ∧ m.write id off v = .ok (m.setSlot id (.mapped (g.set off v)))) := by
  unfold Memory.write
  cases h : m.segment? id with
  | none => simp
  | some g =>
    by_cases hle : g.len ≤ off
    · simp [hle]
    · simp [hle, BitVec.not_le.mp hle]

/-- R48. -/
theorem Memory.alloc_cases {m m' : Memory} {cfg : Config} {len id : Word} (h : m.alloc cfg len = some (id, m')) :
    fitsLimit cfg (m.totalWords + len.toNat) = true ∧
    ((∃ rest, m.free = id :: rest ∧
        m' = { slots := m.slots.set id.toNat (.mapped (Segment.zeroed len)), free := rest }) ∨
      (m.free = [] ∧ m.slots.length < cfg.maxSlots ∧ id = BitVec.ofNat 32 m.slots.length ∧
        m' = { slots := m.slots ++ [.mapped (Segment.zeroed len)], free := [] })) := by
  unfold Memory.alloc at h
  split at h
  · next hfit =>
    refine ⟨hfit, ?_⟩
    split at h
    · next rest hfree => cases h; exact .inl ⟨rest, hfree, rfl⟩
    · next hfree =>
      split at h
      · cases h
      · next hlt => cases h; exact .inr ⟨hfree, Nat.lt_of_not_le hlt, rfl, by rw [hfree]⟩
  · cases h

/-- R48: EXHAUSTED. -/
theorem Memory.alloc_eq_none {m : Memory} {cfg : Config} {len : Word} :
    m.alloc cfg len = none ↔
      fitsLimit cfg (m.totalWords + len.toNat) = false ∨ (m.free = [] ∧ cfg.maxSlots ≤ m.slots.length) := by
  unfold Memory.alloc
  split
  · next hfit =>
    split
    · next hfree => simp [hfit, hfree]
    · next hfree => split <;> simp_all
  · next hfit => simp [Bool.eq_false_iff.mpr hfit]

/-- R50. -/
theorem Memory.release_cases (m : Memory) (id : Word) :
    (id = 0#32 ∧ m.release id = .error .zeroId) ∨
    (id ≠ 0#32 ∧ m.valid id = false ∧ m.release id = .error .badId) ∨
    (id ≠ 0#32 ∧ m.valid id = true ∧
      m.release id = .ok { slots := m.slots.set id.toNat .unmapped, free := id :: m.free }) := by
  unfold Memory.release
  by_cases h : id = 0#32
  · simp [h]
  · cases hv : m.valid id <;> simp [h]

/-- R51. -/
theorem Memory.dup0_cases (m : Memory) (cfg : Config) (id : Word) :
    (id = 0#32 ∧ m.dup0 cfg id = .ok m) ∨
    (id ≠ 0#32 ∧ m.segment? id = none ∧ m.dup0 cfg id = .error .badId) ∨
    (∃ g, id ≠ 0#32 ∧ m.segment? id = some g ∧
      ((fitsLimit cfg (m.totalWords - (m.segLen 0#32).toNat + g.len.toNat) = false ∧
          m.dup0 cfg id = .error .exhausted) ∨
       (fitsLimit cfg (m.totalWords - (m.segLen 0#32).toNat + g.len.toNat) = true ∧
          m.dup0 cfg id = .ok (m.setSlot 0#32 (.mapped g))))) := by
  unfold Memory.dup0
  by_cases h : id = 0#32
  · simp [h]
  · cases hs : m.segment? id with
    | none => simp [h]
    | some g =>
      cases hf : fitsLimit cfg (m.totalWords - (m.segLen 0#32).toNat + g.len.toNat) <;>
        exact .inr (.inr ⟨g, h, rfl, by simp [h, hf]⟩)

/-- R52: a fetch answers exactly what READ of segment 0 answers. -/
theorem Memory.fetch_eq_some {m : Memory} {pc w : Word} : m.fetch pc = some w ↔ m.read 0#32 pc = .ok w := by
  unfold Memory.fetch Memory.read Memory.segLen
  cases m.segment? 0#32 with
  | none => simp
  | some g => by_cases h : g.len ≤ pc <;> simp [h]

/-- R52: PC_RANGE. -/
theorem Memory.fetch_eq_none {m : Memory} {pc : Word} : m.fetch pc = none ↔ m.segLen 0#32 ≤ pc := by
  unfold Memory.fetch Memory.read Memory.segLen
  cases m.segment? 0#32 with
  | none => simp [BitVec.le_def]
  | some g => by_cases h : g.len ≤ pc <;> simp [h]

/-- R108. -/
theorem InputPort.read_cases (p : InputPort) :
    (∃ v rest, p.items = v :: rest ∧ p.read = .data v { p with items := rest }) ∨
    (p.items = [] ∧ p.tail = .eof ∧ p.read = .eof) ∨ (p.items = [] ∧ p.tail = .stall ∧ p.read = .waits) := by
  unfold InputPort.read
  split
  · next v rest h => exact .inl ⟨v, rest, h, rfl⟩
  · next h => split <;> simp_all

/-- R27, its second clause read as a statement about every ID. -/
theorem Memory.freeListExact_iff {m : Memory} :
    m.freeListExact ↔ m.free.Nodup ∧ (∀ id ∈ m.free, id ≠ 0#32 ∧ m.slots[id.toNat]? = some .unmapped) ∧
      ∀ i < m.slots.length, m.slots[i]? = some .unmapped → BitVec.ofNat 32 i ∈ m.free := by
  simp [Memory.freeListExact]

/-! ## Operands -/

/-- R106: the byte of a value up to 255. -/
theorem byteOperand_cases (v : Word) :
    (255 < v.toNat ∧ byteOperand v = none) ∨ (v.toNat ≤ 255 ∧ ∃ b, byteOperand v = some b ∧ b.toNat = v.toNat) := by
  unfold byteOperand
  by_cases h : 255#32 < v
  · exact .inl ⟨by simpa using BitVec.lt_def.mp h, by simp [h]⟩
  · have h' : v.toNat ≤ 255 := by simpa using BitVec.le_def.mp (BitVec.not_lt.mp h)
    refine .inr ⟨h', getField v 8 0, by simp [h], ?_⟩
    simp only [getField, BitVec.extractLsb'_toNat, Nat.shiftRight_zero]
    exact Nat.mod_eq_of_lt (by omega)

/-- R107: the word of an item up to 255. -/
theorem itemOperand_cases (v : Nat) :
    (255 < v ∧ itemOperand v = none) ∨ (v ≤ 255 ∧ ∃ w, itemOperand v = some w ∧ w.toNat = v) := by
  unfold itemOperand
  by_cases h : 255 < v
  · exact .inl ⟨h, by simp [h]⟩
  · refine .inr ⟨by omega, zext32 (BitVec.ofNat 8 v), by simp [h], ?_⟩
    simp only [zext32, BitVec.toNat_setWidth, BitVec.toNat_ofNat]
    omega

/-- R29: the one condition. -/
@[simp] theorem condHolds_iff (v : Word) : condHolds v = true ↔ v ≠ 0#32 := by simp [condHolds]

/-- R66: the immediate's value. -/
theorem immOperand_toNat (imm : Imm25) : (immOperand imm).toNat = imm.toNat := by
  simp only [immOperand, zext32, BitVec.toNat_setWidth]
  have := imm.isLt
  omega

/-! ## Taking a fault -/

/-- R114: what fault entry leaves. -/
theorem takeFault_spec (s : State) (code : FaultCode) : FaultsWith code s (s.takeFault code) :=
  ⟨rfl, fun _ => rfl, rfl, ⟨fun _ _ => rfl, rfl, rfl⟩, ⟨rfl, rfl⟩, rfl⟩

end Sys2Proof.Machine
end

