-- ==== Sys2Proof/Laws/PerInstr.lean ====
section
/-! SUPPORT. The per-instruction family OpcodeField: the opcode bits of an instruction's canonical word are its opcode in
the map of spec/30_encoding.md R69. -/

namespace Sys2Proof.Laws.OpcodeField

/-- R62, R69: bits 31 to 28 of the encoded word. -/
def Statement (i : Instr) : Prop := getField (encode i) 4 28 = i.opcode

theorem cmov (a b c : Reg) : Statement (.cmov a b c) := opcode_encR3 _ a b c
theorem sload (a b c : Reg) : Statement (.sload a b c) := opcode_encR3 _ a b c
theorem sstore (a b c : Reg) : Statement (.sstore a b c) := opcode_encR3 _ a b c
theorem add (a b c : Reg) : Statement (.add a b c) := opcode_encR3 _ a b c
theorem mul (a b c : Reg) : Statement (.mul a b c) := opcode_encR3 _ a b c
theorem div (a b c : Reg) : Statement (.div a b c) := opcode_encR3 _ a b c
theorem nand (a b c : Reg) : Statement (.nand a b c) := opcode_encR3 _ a b c
theorem halt : Statement (.halt) := opcode_encR3 _ 0 0 0
theorem map (b c : Reg) : Statement (.map b c) := opcode_encR3 _ 0 b c
theorem unmap (c : Reg) : Statement (.unmap c) := opcode_encR3 _ 0 0 c
theorem output (c : Reg) : Statement (.output c) := opcode_encR3 _ 0 0 c
theorem input (c : Reg) : Statement (.input c) := opcode_encR3 _ 0 0 c
theorem loadprog (b c : Reg) : Statement (.loadprog b c) := opcode_encR3 _ 0 b c
theorem lv (a : Reg) (imm : Imm25) : Statement (.lv a imm) := opcode_encImm a imm
theorem invalid14 : Statement (.invalid14) := opcode_encR3 _ 0 0 0
theorem invalid15 : Statement (.invalid15) := opcode_encR3 _ 0 0 0

end Sys2Proof.Laws.OpcodeField
end

