-- ==== Sys2Proof/Laws/Step.lean ====
section
/-! SUPPORT. What a step can do, said once: the fetch's cases (spec/40_sequencer.md R81), and what the execution of any
instruction can do to the segment store. -/

namespace Sys2Proof.Machine

/-- R81, R86: a step that answers a next state ran in Running and either failed its fetch or executed the word at the pc. -/
theorem step_cases {s t : State} (h : step s = .next t) :
    s.status = .running ∧
      ((s.mem.fetch s.pc = none ∧ t = s.takeFault .pcOutOfRange) ∨
        ∃ w, s.mem.fetch s.pc = some w ∧ exec (decode w) s = .next t) := by
  unfold step at h
  split at h
  · cases h
  · cases h
  · next hs =>
    refine ⟨hs, ?_⟩
    split at h
    · next hf => exact .inl ⟨hf, by simpa using h.symm⟩
    · next w hf => exact .inr ⟨w, hf, h⟩

/-- How executing an instruction leaves the store: unchanged, or by the one request of the segment-store controller (R36)
that its rule makes. -/
def StoreStep (i : Instr) (s t : State) : Prop :=
  t.mem = s.mem ∨
    (∃ a b c, i = .sstore a b c ∧ s.mem.write (s.reg a) (s.reg b) (s.reg c) = .ok t.mem) ∨
    (∃ b c id, i = .map b c ∧ s.mem.alloc s.config (s.reg c) = some (id, t.mem)) ∨
    (∃ c, i = .unmap c ∧ s.mem.release (s.reg c) = .ok t.mem) ∨
    ∃ b c, i = .loadprog b c ∧ s.mem.dup0 s.config (s.reg b) = .ok t.mem

/-- How executing an instruction leaves the status and the pc (R84, R100, R114). -/
def ControlStep (i : Instr) (s t : State) : Prop :=
  (∃ code, code ≠ .pcOutOfRange ∧ t = s.takeFault code) ∨
    (i = .halt ∧ t = (s.setStatus .halted).advance) ∨
    (i ≠ .halt ∧ t.status = s.status ∧
      (((∀ b c, i ≠ .loadprog b c) ∧ t.pc = s.pc + 1#32) ∨ ∃ b c, i = .loadprog b c ∧ t.pc = s.reg c))

/-- R82: what any instruction can do to the store, the status, the pc and the launch parameters. -/
theorem exec_cases {i : Instr} {s t : State} (h : exec i s = .next t) :
    StoreStep i s t ∧ ControlStep i s t ∧ t.config = s.config := by
  have fault : ∀ {i : Instr} (code : FaultCode), code ≠ .pcOutOfRange → StoreStep i s (s.takeFault code) ∧
      ControlStep i s (s.takeFault code) ∧ (s.takeFault code).config = s.config := fun code hc =>
    ⟨.inl rfl, .inl ⟨code, hc, rfl⟩, rfl⟩
  have plain : ∀ {i : Instr} {t : State}, i ≠ .halt → (∀ b c, i ≠ .loadprog b c) → t.mem = s.mem →
      t.status = s.status → t.pc = s.pc + 1#32 → t.config = s.config →
      StoreStep i s t ∧ ControlStep i s t ∧ t.config = s.config := fun h1 h2 hm hs hp hc =>
    ⟨.inl hm, .inr (.inr ⟨h1, hs, .inl ⟨h2, hp⟩⟩), hc⟩
  cases i <;> simp only [exec] at h
  case cmov => unfold execCmov at h; split at h <;> (cases h; exact plain (by simp) (by simp) rfl rfl rfl rfl)
  case sload =>
    unfold execSload at h
    split at h <;> cases h
    · exact plain (by simp) (by simp) rfl rfl rfl rfl
    all_goals exact fault _ (by decide)
  case sstore a b c =>
    unfold execSstore at h
    split at h
    · next m hm =>
      cases h
      exact ⟨.inr (.inl ⟨a, b, c, rfl, hm⟩), .inr (.inr ⟨by simp, rfl, .inl ⟨by simp, rfl⟩⟩), rfl⟩
    all_goals (cases h; exact fault _ (by decide))
  case div =>
    unfold execDiv at h
    split at h <;> cases h
    · exact fault _ (by decide)
    · exact plain (by simp) (by simp) rfl rfl rfl rfl
  case halt => cases h; exact ⟨.inl rfl, .inr (.inl ⟨rfl, rfl⟩), rfl⟩
  case map b c =>
    unfold execMap at h
    split at h
    · next id m hm =>
      cases h
      exact ⟨.inr (.inr (.inl ⟨b, c, id, rfl, hm⟩)), .inr (.inr ⟨by simp, rfl, .inl ⟨by simp, rfl⟩⟩), rfl⟩
    · cases h; exact fault _ (by decide)
  case unmap c =>
    unfold execUnmap at h
    split at h
    · next m hm =>
      cases h
      exact ⟨.inr (.inr (.inr (.inl ⟨c, rfl, hm⟩))), .inr (.inr ⟨by simp, rfl, .inl ⟨by simp, rfl⟩⟩), rfl⟩
    all_goals (cases h; exact fault _ (by decide))
  case output =>
    unfold execOutput at h
    split at h <;> cases h
    · exact plain (by simp) (by simp) rfl rfl rfl rfl
    · exact fault _ (by decide)
  case input =>
    unfold execInput at h
    split at h
    · split at h <;> cases h
      · exact plain (by simp) (by simp) rfl rfl rfl rfl
      · exact fault _ (by decide)
    · cases h; exact plain (by simp) (by simp) rfl rfl rfl rfl
    · cases h
  case loadprog b c =>
    unfold execLoadprog at h
    split at h
    · next m hm =>
      cases h
      exact ⟨.inr (.inr (.inr (.inr ⟨b, c, rfl, hm⟩))), .inr (.inr ⟨by simp, rfl, .inr ⟨b, c, rfl, rfl⟩⟩), rfl⟩
    all_goals (cases h; exact fault _ (by decide))
  case invalid14 => cases h; exact fault _ (by decide)
  case invalid15 => cases h; exact fault _ (by decide)
  all_goals (cases h; exact plain (by simp) (by simp) rfl rfl rfl rfl)

/-- A step leaves the store as some instruction's request does, and changes no launch parameter. -/
theorem step_storeStep {s t : State} (h : step s = .next t) : (∃ i, StoreStep i s t) ∧ t.config = s.config := by
  obtain ⟨-, ⟨-, rfl⟩ | ⟨w, -, hw⟩⟩ := step_cases h
  · exact ⟨⟨.halt, .inl rfl⟩, rfl⟩
  · exact ⟨⟨decode w, (exec_cases hw).1⟩, (exec_cases hw).2.2⟩

/-- Every request of the store keeps the canonical form. -/
theorem StoreStep.wf {i : Instr} {s t : State} (h : StoreStep i s t) (hwf : s.mem.wf) : t.mem.wf := by
  rcases h with h | ⟨_, _, _, -, h⟩ | ⟨_, _, _, -, h⟩ | ⟨_, -, h⟩ | ⟨_, _, -, h⟩
  · rw [h]; exact hwf
  · exact Memory.write_wf hwf h
  · exact Memory.alloc_wf hwf h
  · exact Memory.release_wf hwf h
  · exact Memory.dup0_wf hwf h

end Sys2Proof.Machine
end

