-- ==== Sys2Proof/Tests/Slice0.lean ====
section
/-! SUPPORT. The model's own tests. The expected results are those of spec/95_test_vectors.md or worked out by hand from
the rules named; the witnesses at the end show that the statements' hypotheses can be met. -/

namespace Sys2Proof.Tests

open Sys2Proof Sys2Proof.Machine

/-- The next state of an outcome. -/
def nextOf : Host.Outcome State Fault Refusal → Option State
  | .next s => some s
  | .fault _ => none
  | .refused _ => none

/-- The fault of an outcome. -/
def faultOf : Host.Outcome State Fault Refusal → Option Fault
  | .next _ => none
  | .fault f => some f
  | .refused _ => none

/-- A running core with a program, an input and limits. -/
def withImage (ws : List Word) (items : List Nat := []) (tail : InputTail := .eof) (cfg : Config := Config.default) : State :=
  launch cfg ws { items := items, tail := tail }

/-- What a test looks at after one step: status, pc and one register. -/
def look (r : Reg) (s : State) : Option (RunStatus × Word × Word) :=
  (nextOf (step s)).map (fun t => (t.status, t.pc, t.reg r))

/-- The host's placing of a word after some registers are set. -/
def at0 (w : Word) (regs : List (Reg × Word)) : State :=
  (regs.foldl (fun s p => s.setReg p.1 p.2) State.reset).withFetchWord 32 w.toNat

/-- A store with one program word, segment 1 = [7, 130], slot 2 unmapped. -/
def demoMem (w : Word) : Memory :=
  { slots := [.mapped (Segment.ofWords [w]), .mapped (Segment.ofWords [7#32, 130#32]), .unmapped], free := [2#32] }

/-- A running core over `demoMem`, its registers set. -/
def demo (w : Word) (regs : List (Reg × Word)) : State :=
  (regs.foldl (fun s p => s.setReg p.1 p.2) State.reset).setMem (demoMem w)

/-! ## WellFormed: one ill-formed term a check -/

theorem test_wf_invalid14 : Instr.invalid14.wellFormed = false := by decide
theorem test_wf_invalid15 : Instr.invalid15.wellFormed = false := by decide
theorem test_wf_instr : (Instr.lv 7 0x1FFFFFF#25).wellFormed = true := by decide
theorem test_wf_op : (AsmStmt.r3 13 0 0 0).wellFormed = false := by decide
theorem test_wf_a : (AsmStmt.r3 0 8 0 0).wellFormed = false := by decide
theorem test_wf_b : (AsmStmt.r3 0 0 8 0).wellFormed = false := by decide
theorem test_wf_c : (AsmStmt.r3 0 0 0 8).wellFormed = false := by decide
theorem test_wf_lv_a : (AsmStmt.lv 8 0).wellFormed = false := by decide
theorem test_wf_imm : (AsmStmt.lv 0 0x2000000).wellFormed = false := by decide
theorem test_wf_word : (AsmStmt.word 0x100000000).wellFormed = false := by decide
theorem test_wf_accepted : (AsmStmt.r3 12 7 7 7).wellFormed = true ∧ (AsmStmt.lv 7 0x1FFFFFF).wellFormed = true ∧
    (AsmStmt.word 0xFFFFFFFF).wellFormed = true := by decide
theorem test_assemble_refuses : assemble (.r3 14 0 0 0) = none ∧ assemble (.lv 0 0x2000000) = none ∧
    assemble (.word 0x100000000) = none := by decide
theorem test_assemble_bounds : assemble (.r3 12 0 2 0) = some 0xC0000010#32 ∧
    assemble (.lv 7 0x1FFFFFF) = some 0xDFFFFFFF#32 ∧ assemble (.word 0xFFFFFFFF) = some 0xFFFFFFFF#32 := by decide

/-! ## Decode: one word a constructor, bit by bit from R62, R64 and R65 -/

theorem test_decode_cmov : decode 0b0000_0000000000000000000_001_010_011#32 = .cmov 1 2 3 := by decide
theorem test_decode_sload : decode 0b0001_0000000000000000000_101_010_011#32 = .sload 5 2 3 := by decide
theorem test_decode_sstore : decode 0b0010_0000000000000000000_010_011_100#32 = .sstore 2 3 4 := by decide
theorem test_decode_add : decode 0b0011_0000000000000000000_011_001_010#32 = .add 3 1 2 := by decide
theorem test_decode_mul : decode 0b0100_0000000000000000000_011_001_010#32 = .mul 3 1 2 := by decide
theorem test_decode_div : decode 0b0101_0000000000000000000_111_101_110#32 = .div 7 5 6 := by decide
theorem test_decode_nand : decode 0b0110_0000000000000000000_011_001_001#32 = .nand 3 1 1 := by decide
theorem test_decode_halt : decode 0b0111_1111111111111111111_111_111_111#32 = .halt := by decide
theorem test_decode_map : decode 0b1000_0000000000000000000_000_010_001#32 = .map 2 1 := by decide
theorem test_decode_unmap : decode 0b1001_0000000000000000000_000_000_010#32 = .unmap 2 := by decide
theorem test_decode_output : decode 0b1010_0000000000000000000_000_000_111#32 = .output 7 := by decide
theorem test_decode_input : decode 0b1011_0000000000000000000_000_000_011#32 = .input 3 := by decide
theorem test_decode_loadprog : decode 0b1100_0000000000000000000_000_001_010#32 = .loadprog 1 2 := by decide
theorem test_decode_lv : decode 0b1101_001_0000000000000000001001000#32 = .lv 1 72#25 := by decide
theorem test_decode_invalid14 : decode 0b1110_1111111111111111111_111_111_111#32 = .invalid14 := by decide
theorem test_decode_invalid15 : decode 0b1111_0000000000000000000_000_000_000#32 = .invalid15 := by decide
theorem test_decode_bytes : decodeBytes [0xD2#8, 0x00#8, 0x00#8, 0x48#8, 0xA0#8] = .ok (.lv 1 72#25, [0xA0#8]) := by decide
theorem test_decode_truncated : decodeBytes [0xD2#8, 0x00#8, 0x00#8] = .error .truncated := by decide
theorem test_decode_tableWord : decodeTableWord 32 0x80000011 = some (.map 2 1) := by decide
/-- W1. -/
theorem test_setField : setField 0xFFFFFFFF#32 3 6 9#32 = 0xFFFFFE7F#32 ∧ getField 0xFFFFFE7F#32 3 6 = 1#3 := by decide
theorem test_encode : encode (.map 2 1) = 0x80000011#32 ∧ encode (.cmov 7 7 7) = 0x000001FF#32 ∧
    encode (.lv 2 0x1FFFFFF#25) = 0xD5FFFFFF#32 := by decide

/-! ## One step of each instruction -/

/-- V-M3, V-M4: the condition register is the destination. -/
theorem test_cmov_taken : look 1 (at0 0x00000051#32 [(1, 5#32), (2, 9#32)]) = some (.running, 1#32, 9#32) := by decide
theorem test_cmov_not : look 1 (at0 0x00000051#32 [(1, 0#32), (2, 9#32)]) = some (.running, 1#32, 0#32) := by decide
/-- V-M5, V-M6: no sign extension. -/
theorem test_lv_max : look 3 (at0 0xD7FFFFFF#32 []) = some (.running, 1#32, 0x01FFFFFF#32) := by decide
theorem test_lv_clears : look 0 (at0 0xD0000000#32 [(0, 0xFFFFFFFF#32)]) = some (.running, 1#32, 0#32) := by decide
/-- V-A1, V-A19. -/
theorem test_add_wraps : look 3 (at0 0x300000CA#32 [(1, 0xFFFFFFFF#32), (2, 2#32)]) = some (.running, 1#32, 1#32) := by decide
theorem test_add_same : look 1 (at0 0x3000004A#32 [(1, 6#32), (2, 7#32)]) = some (.running, 1#32, 13#32) := by decide
/-- V-A6, V-A7. -/
theorem test_mul_wraps : look 3 (at0 0x400000CA#32 [(1, 0x10000#32), (2, 0x10001#32)]) = some (.running, 1#32, 0x10000#32) := by
  decide
theorem test_mul_low : look 3 (at0 0x400000CA#32 [(1, 0xFFFFFFFF#32), (2, 5#32)]) = some (.running, 1#32, 0xFFFFFFFB#32) := by
  decide
/-- V-A8, V-A13. -/
theorem test_div : look 3 (at0 0x500000CA#32 [(1, 7#32), (2, 2#32)]) = some (.running, 1#32, 3#32) := by decide
theorem test_div_zero : look 3 (at0 0x500000CA#32 [(1, 5#32), (3, 8#32)]) =
    some (.faulted ⟨.divideByZero, 0#32, some 0x500000CA#32⟩, 0#32, 8#32) := by decide
/-- V-A17, V-A18. -/
theorem test_nand : look 3 (at0 0x600000CA#32 [(1, 0xF0F0F0F0#32), (2, 0xFF00FF00#32)]) =
    some (.running, 1#32, 0x0FFF0FFF#32) := by decide
theorem test_nand_not : look 3 (at0 0x600000C9#32 [(1, 0x12345678#32)]) = some (.running, 1#32, 0xEDCBA987#32) := by decide
/-- V-SA1; R116: an unmapped ID is reported before the offset. -/
theorem test_sload : look 5 (demo 0x10000153#32 [(2, 1#32), (3, 1#32)]) = some (.running, 1#32, 130#32) := by decide
theorem test_sload_unmapped : look 5 (demo 0x10000153#32 [(2, 2#32), (3, 5#32)]) =
    some (.faulted ⟨.loadBadSegment, 0#32, some 0x10000153#32⟩, 0#32, 0#32) := by decide
/-- V-SA2, V-SA5. -/
theorem test_sstore : (nextOf (step (demo 0x2000009C#32 [(2, 1#32), (3, 0#32), (4, 131#32)]))).map (·.mem.slots[1]?) =
    some (some (.mapped (Segment.ofWords [131#32, 130#32]))) := by decide
theorem test_sstore_strict : look 3 (demo 0x2000009C#32 [(2, 1#32), (3, 2#32), (4, 131#32)]) =
    some (.faulted ⟨.storeBadOffset, 0#32, some 0x2000009C#32⟩, 0#32, 2#32) := by decide
/-- V-C1. -/
theorem test_halt : (nextOf (step (withImage [0x70000000#32]))).map (fun t => (t.status, t.out)) =
    some (.halted, []) := by decide
/-- V-SM3: the length is read before the register is written. -/
theorem test_map : (nextOf (step (at0 0x80000009#32 [(1, 4#32)]))).map (fun t => (t.reg 1, t.mem.slots[1]?)) =
    some (1#32, some (.mapped ⟨4#32, []⟩)) := by decide
/-- V-SM8: `MAX_SLOTS` reached. -/
theorem test_map_exhausted : look 1 (withImage [0x80000008#32] [] .eof ⟨none, 1⟩) =
    some (.faulted ⟨.allocExhausted, 0#32, some 0x80000008#32⟩, 0#32, 0#32) := by decide
/-- V-SM6, V-SM4. -/
theorem test_unmap : (nextOf (step (demo 0x90000002#32 [(2, 1#32)]))).map (fun t => (t.mem.slots[1]?, t.mem.free)) =
    some (some .unmapped, [1#32, 2#32]) := by decide
theorem test_unmap_zero : look 0 (withImage [0x90000000#32]) =
    some (.faulted ⟨.unmapSegmentZero, 0#32, some 0x90000000#32⟩, 0#32, 0#32) := by decide
/-- V-IO3, V-IO4. -/
theorem test_output : (nextOf (step (at0 0xA0000001#32 [(1, 255#32)]))).map (·.out) = some [0xFF#8] := by decide
theorem test_output_above : (nextOf (step (at0 0xA0000001#32 [(1, 256#32)]))).map (fun t => (t.status, t.out)) =
    some (.faulted ⟨.outputOutOfRange, 0#32, some 0xA0000001#32⟩, []) := by decide
/-- V-IO9, V-IO7. -/
theorem test_input : (nextOf (step (withImage [0xB0000003#32] [0xFF, 1]))).map (fun t => (t.reg 3, t.inp.items)) =
    some (0xFF#32, [1]) := by decide
theorem test_input_above : (nextOf (step (withImage [0xB0000003#32] [300]))).map (fun t => (t.status, t.reg 3, t.inp.items)) =
    some (.faulted ⟨.inputOutOfRange, 0#32, some 0xB0000003#32⟩, 0#32, [300]) := by decide
/-- V-C5, V-C7. -/
theorem test_loadprog_jump : look 0 (at0 0xC0000001#32 [(1, 7#32)]) = some (.running, 7#32, 0#32) := by decide
theorem test_loadprog : (nextOf (step (demo 0xC000000A#32 [(1, 1#32), (2, 1#32)]))).map
    (fun t => (t.pc, t.mem.slots[0]?, t.mem.slots[1]?)) =
    some (1#32, some (.mapped (Segment.ofWords [7#32, 130#32])), some (.mapped (Segment.ofWords [7#32, 130#32]))) := by decide
/-- V-D9, V-D10. -/
theorem test_invalid14 : look 0 (withImage [0xE0000000#32]) =
    some (.faulted ⟨.invalidOpcode, 0#32, some 0xE0000000#32⟩, 0#32, 0#32) := by decide
theorem test_invalid15 : look 0 (withImage [0xFFFFFFFF#32]) =
    some (.faulted ⟨.invalidOpcode, 0#32, some 0xFFFFFFFF#32⟩, 0#32, 0#32) := by decide
/-- V-C2. -/
theorem test_fetch_past_end : look 0 State.reset = some (.faulted ⟨.pcOutOfRange, 0#32, none⟩, 0#32, 0#32) := by decide
/-- V-IO8. -/
theorem test_input_waits : faultOf (step (withImage [0xB0000003#32] [] .stall)) = some .inputWaits := by decide

/-! ## Boot (V-B1 to V-B4) and the assembler's text (R77, R80) -/

theorem test_boot_big_endian : load [0xD2#8, 0#8, 0#8, 0x48#8, 0xA0#8, 0#8, 0#8, 1#8] = some [0xD2000048#32, 0xA0000001#32] := by
  decide
theorem test_boot_partial : boot Config.default [0x70#8, 0#8, 0#8] ⟨[], .eof⟩ = .error .partialWord := by decide
theorem test_boot_order : load [0#8, 0#8, 0#8, 0x70#8] = some [0x70#32] ∧ decode 0x70#32 = .cmov 1 6 0 := by decide
theorem test_asm_map : assembleLine "  MAP r2, r1 ; new" = .ok (some 0x80000011#32) := by decide
theorem test_asm_lv : assembleLine "LV r6, 0x5A" = .ok (some 0xDC00005A#32) := by decide
theorem test_asm_range : assembleLine "ADD r8, r1, r2" = .error .outOfRange := by decide
theorem test_asm_comment : assembleLine "; nothing" = .ok none := by decide
/-- P1 ("Hi"), its last three words and their image bytes. -/
theorem test_asm_lines : assembleLines ["LV r1, 105 ; i", "OUT r1", "", "HALT"] =
    .ok [0xD2000069#32, 0xA0000001#32, 0x70000000#32] := by decide
theorem test_image_bytes : imageBytes [0xD2000069#32, 0x70000000#32] =
    [0xD2#8, 0#8, 0#8, 0x69#8, 0x70#8, 0#8, 0#8, 0#8] := by decide
theorem test_disassemble : disassemble 0x50000088#32 = "DIV r2, r1, r0" := by decide
theorem test_disassemble_word : disassemble 0xE0000000#32 = ".word 0xE0000000" := by decide

/-! ## Witnesses: concrete inputs that meet each statement's hypotheses, one a clause, at the boundaries of their ranges -/

/-- A small image: LV r1, 72 and HALT. -/
def image : List Byte := [0xD2#8, 0x00#8, 0x00#8, 0x48#8, 0x70#8, 0x00#8, 0x00#8, 0x00#8]

/-- The state `boot` gives for an answer, if it gives one. -/
def booted : Except BootRefusal State → Option State
  | .ok s => some s
  | .error _ => none

/-- The core that has booted `image`. -/
def bootedImage : State := withImage [0xD2000048#32, 0x70000000#32]

theorem boot_image : boot Config.default image ⟨[], .eof⟩ = .ok bootedImage := by decide

/-- A core over `demoMem` with the word at its pc, and the registers 1 to 4. -/
abbrev sample (w r1 r2 r3 r4 : Word) : State := demo w [(1, r1), (2, r2), (3, r3), (4, r4)]

theorem witness_FieldWriteReadBack : 3 + 6 ≤ 32 ∧ 32 + 0 ≤ 32 ∧ 0 + 32 ≤ 32 ∧ 31 < 32 ∧
    getField (setField 0xFFFFFFFF#32 32 0 5#32) 32 0 = 5#32 ∧ setField 0xFFFFFFFF#32 0 32 5#32 = 0xFFFFFFFF#32 := by decide

theorem witness_DecoderFormatAndFields :
    ((0xCFFFFFFF#32 : Word).extractLsb 31 28).toNat ≤ 12 ∧ (fieldsOf 0xCFFFFFFF#32).fmt = .r3 ∧
    ((0xD0000000#32 : Word).extractLsb 31 28).toNat = 13 ∧ (fieldsOf 0xD0000000#32).fmt = .imm ∧
    ((0xE0000000#32 : Word).extractLsb 31 28).toNat = 14 ∧ (fieldsOf 0xE0000000#32).fmt = .invalid ∧
    ((0xF0000000#32 : Word).extractLsb 31 28).toNat = 15 ∧ (fieldsOf 0xF0000000#32).fmt = .invalid := by decide

theorem witness_FieldsRoundTrip : (12#4).toNat ≤ 12 ∧ (fieldsOf (encR3 12#4 7 0 7)).op = 12#4 ∧
    (fieldsOf (encR3 12#4 7 0 7)).b = 0#3 := by decide

theorem witness_ReencodeExactlyCanonical :
    ((0xD2000048#32 : Word).extractLsb 31 28).toNat ≤ 13 ∧ encode (decode 0xD2000048#32) = 0xD2000048#32 ∧
    ((0x70000001#32 : Word).extractLsb 31 28).toNat = 7 ∧ encode (decode 0x70000001#32) ≠ 0x70000001#32 ∧
    ((0xC0000040#32 : Word).extractLsb 31 28).toNat = 12 ∧ encode (decode 0xC0000040#32) ≠ 0xC0000040#32 ∧
    ((0x90000008#32 : Word).extractLsb 31 28).toNat = 9 ∧ encode (decode 0x90000008#32) ≠ 0x90000008#32 ∧
    ((0x00000200#32 : Word).extractLsb 31 28).toNat ≤ 12 ∧ encode (decode 0x00000200#32) ≠ 0x00000200#32 := by decide

theorem witness_IgnoredBitsHaveNoEffect :
    ((0xC0000010#32 : Word).extractLsb 31 28).toNat ≤ 12 ∧ decode 0xCFFFFE10#32 = .loadprog 2 0 ∧
    ((0x70000000#32 : Word).extractLsb 31 28).toNat = 7 ∧ decode 0x700001FF#32 = .halt ∧
    ((0x80000011#32 : Word).extractLsb 31 28).toNat = 8 ∧ decode 0x800001D1#32 = .map 2 1 ∧
    ((0xC0000010#32 : Word).extractLsb 31 28).toNat = 12 ∧ decode 0xC00001D0#32 = .loadprog 2 0 ∧
    ((0x90000002#32 : Word).extractLsb 31 28).toNat = 9 ∧ decode 0x900001FA#32 = .unmap 2 ∧
    ((0xA0000002#32 : Word).extractLsb 31 28).toNat = 10 ∧ decode 0xA00001FA#32 = .output 2 ∧
    ((0xB0000002#32 : Word).extractLsb 31 28).toNat = 11 ∧ decode 0xB00001FA#32 = .input 2 ∧
    14 ≤ ((0xE0000000#32 : Word).extractLsb 31 28).toNat ∧ decode 0xEFFFFFFF#32 = .invalid14 := by decide

theorem witness_AssemblerNeverTruncates :
    assemble (.r3 13 7 7 7) = none ∧ assemble (.r3 12 7 7 7) = some 0xC00001FF#32 ∧
    assemble (.lv 7 0x2000000) = none ∧ assemble (.lv 7 0x1FFFFFF) = some 0xDFFFFFFF#32 ∧
    assemble (.word 0x100000000) = none ∧ assemble (.word 0xFFFFFFFF) = some 0xFFFFFFFF#32 := by decide

theorem witness_TableWordRunsNext : State.reset.mem.wf ∧ (sample 0#32 0#32 0#32 0#32 0#32).mem.wf := by decide

theorem witness_ResetRegistersAndPcZero :
    boot Config.default image ⟨[], .eof⟩ = .ok bootedImage ∧ bootedImage.mem.read 0#32 0#32 = .ok 0xD2000048#32 := by decide

theorem witness_LaunchResetState : boot ⟨some 2, 1⟩ image ⟨[300], .stall⟩ =
    .ok (withImage [0xD2000048#32, 0x70000000#32] [300] .stall ⟨some 2, 1⟩) := by decide

theorem witness_LoaderGroupsBigEndian : image.length = 4 * 2 ∧ load image = some [0xD2000048#32, 0x70000000#32] ∧
    ([] : List Byte).length = 4 * 0 ∧ load [] = some [] := by decide

theorem witness_LaunchedProgramReadable : boot Config.default image ⟨[], .eof⟩ = .ok bootedImage ∧
    bootedImage.mem.read 0#32 1#32 = .ok 0x70000000#32 ∧ bootedImage.mem.read 0#32 2#32 = .error .badOff := by decide

theorem witness_BootRefusesExactly :
    boot Config.default [0x70#8] ⟨[], .eof⟩ = .error .partialWord ∧ boot ⟨some 1, 1⟩ image ⟨[], .eof⟩ = .error .overLimit ∧
    (booted (boot ⟨some 2, 1⟩ image ⟨[], .eof⟩)).isSome = true := by decide

/-- The clause of an image too long, which no test can write out. -/
theorem witness_BootRefusesExactly_tooLong : (List.replicate (2 ^ 34) (0#8 : Byte)).length % 4 = 0 ∧
    2 ^ 32 - 1 < (List.replicate (2 ^ 34) (0#8 : Byte)).length / 4 := by
  rw [List.length_replicate]; decide

theorem witness_StepRunsDecodedInstruction : bootedImage.status = .running ∧
    bootedImage.mem.read 0#32 bootedImage.pc = .ok 0xD2000048#32 ∧
    bootedImage.mem.read 0#32 bootedImage.pc = .ok (encode (.lv 1 72#25)) := by decide

theorem witness_FetchPastEndFaults : (bootedImage.jump 2#32).status = .running ∧
    (bootedImage.jump 2#32).mem.segLen 0#32 ≤ (bootedImage.jump 2#32).pc ∧
    look 0 (bootedImage.jump 2#32) = some (.faulted ⟨.pcOutOfRange, 2#32, none⟩, 2#32, 0#32) := by decide

theorem witness_NoStepAfterTheEnd : (State.reset.setStatus .halted).status ≠ .running ∧
    (State.reset.takeFault .divideByZero).status ≠ .running ∧
    faultOf (step (State.reset.setStatus .halted)) = some .halted := by decide

theorem witness_FaultingStepChangesOnlyStatus : ∃ t, step (at0 0x500000CA#32 []) = .next t ∧
    t.status = .faulted ⟨.divideByZero, 0#32, some 0x500000CA#32⟩ := ⟨_, rfl, by decide⟩

theorem witness_FaultingStepChangesOnlyStatus_fetch : ∃ t, step State.reset = .next t ∧
    t.status = .faulted ⟨.pcOutOfRange, 0#32, none⟩ := ⟨_, rfl, by decide⟩

theorem witness_OnlyHaltHalts : ∃ t, step (at0 0x70000000#32 []) = .next t ∧ t.status = .halted := ⟨_, rfl, by decide⟩

theorem witness_PcAfterEveryStep : ∃ t, step (at0 0xC0000001#32 [(1, 0xFFFFFFFF#32)]) = .next t ∧ t.status = .running ∧
    decode 0xC0000001#32 = .loadprog 0 1 ∧ t.pc = 0xFFFFFFFF#32 := ⟨_, rfl, by decide⟩

theorem witness_PcAfterEveryStep_others : ∃ t, step bootedImage = .next t ∧ t.status = .running ∧
    decode 0xD2000048#32 = .lv 1 72#25 ∧ t.pc = 1#32 := ⟨_, rfl, by decide⟩

theorem witness_EveryStepCompletesButWaitingInput : (withImage [0xB0000003#32] [] .stall).status = .running ∧
    bootedImage.status = .running := by decide

theorem witness_StepKeepsStoreInvariant :
    ∃ t, Inv (sample 0x90000001#32 1#32 0#32 0#32 0#32) ∧ step (sample 0x90000001#32 1#32 0#32 0#32 0#32) = .next t ∧
      t.mem.free = [1#32, 2#32] := ⟨_, by decide, rfl, by decide⟩

theorem witness_LaunchMeetsStoreInvariant : Config.wf ⟨some 2, 1⟩ ∧ Config.wf ⟨none, 2 ^ 32⟩ ∧
    (booted (boot ⟨some 2, 1⟩ image ⟨[], .eof⟩)).isSome = true := by decide

theorem witness_SlotCountGrowsOnlyByMap : ∃ t, step (at0 0x80000009#32 [(1, 4#32)]) = .next t ∧
    t.mem.slots.length = 2 ∧ decode 0x80000009#32 = .map 1 1 := ⟨_, rfl, by decide⟩

theorem witness_RegisterWriteTable : ∃ t, exec (.add 3 1 2) State.reset = .next t ∧ destReg (.add 3 1 2) ≠ some 4#3 :=
  ⟨_, rfl, by decide⟩

theorem witness_RegisterReadTable : (0#3 : Reg) ∉ sourceRegs (.add 3 1 2) ∧ destReg (.add 3 1 2) ≠ some 0#3 ∧
    (∃ t, exec (.add 3 1 2) State.reset = .next t) ∧ (0#3 : Reg) ∉ sourceRegs (.input 3) ∧
    destReg (.input 3) ≠ some 0#3 ∧ exec (.input 3) (withImage [] [] .stall) = .fault .inputWaits :=
  ⟨by decide, by decide, ⟨_, rfl⟩, by decide, by decide, rfl⟩

theorem witness_StoreChangedByFourInstructions : (∀ a b c, Instr.add 3 1 2 ≠ .sstore a b c) ∧
    (∀ b c, Instr.add 3 1 2 ≠ .map b c) ∧ (∀ c, Instr.add 3 1 2 ≠ .unmap c) ∧ (∀ b c, Instr.add 3 1 2 ≠ .loadprog b c) ∧
    ∃ t, exec (.add 3 1 2) State.reset = .next t :=
  ⟨by simp, by simp, by simp, by simp, _, rfl⟩

theorem witness_PortsChangedByInputAndOutput : (∃ t, exec (.input 3) (withImage [] [0]) = .next t ∧ t.inp.items = []) ∧
    (∀ c, Instr.input 3 ≠ .output c) ∧ (∃ t, exec (.output 3) State.reset = .next t ∧ t.out = [0#8]) ∧
    ∀ c, Instr.output 3 ≠ .input c :=
  ⟨⟨_, rfl, by decide⟩, by simp, ⟨_, rfl, by decide⟩, by simp⟩

theorem witness_AccessFailsExactly : (demoMem 0#32).read 3#32 0#32 = .error .badId ∧
    (demoMem 0#32).read 2#32 0#32 = .error .badId ∧ (demoMem 0#32).read 1#32 2#32 = .error .badOff ∧
    (demoMem 0#32).read 1#32 1#32 = .ok 130#32 := by decide

theorem witness_ReadAfterWrite : ∃ m, (demoMem 0#32).wf ∧ (demoMem 0#32).write 1#32 1#32 0#32 = .ok m ∧
    m.read 1#32 1#32 = .ok 0#32 ∧ m.read 1#32 0#32 = .ok 7#32 := ⟨_, by decide, rfl, by decide⟩

/-- Writing the value an unlisted word reads as removes the entry. -/
theorem witness_CanonicalSegmentsEqual : ((Segment.ofWords [7#32, 130#32]).set 1#32 0#32).wf ∧
    (Segment.ofWords [7#32, 0#32]).wf ∧
    (Segment.ofWords [7#32, 130#32]).set 1#32 0#32 = Segment.ofWords [7#32, 0#32] := by decide

theorem witness_FreedIdReusedFirst : ∃ m, (demoMem 0#32).release 1#32 = .ok m ∧
    fitsLimit ⟨some 5, 3⟩ (m.totalWords + (4#32 : Word).toNat) = true := ⟨_, rfl, by decide⟩

theorem witness_FreedIdInvalidAtOnce : ∃ m, (demoMem 0#32).release 1#32 = .ok m ∧
    m.read 1#32 0#32 = .error .badId ∧ m.read 0#32 0#32 = .ok 0#32 := ⟨_, rfl, by decide⟩

theorem witness_AllocReturnsFreshId : ∃ id m, Inv (sample 0#32 0#32 0#32 0#32 0#32) ∧
    (sample 0#32 0#32 0#32 0#32 0#32).mem.alloc (sample 0#32 0#32 0#32 0#32 0#32).config 3#32 = some (id, m) ∧
    id = 2#32 := ⟨_, _, by decide, rfl, by decide⟩

theorem witness_AllocReturnsFreshId_new : ∃ id m, Inv bootedImage ∧
    bootedImage.mem.alloc bootedImage.config 3#32 = some (id, m) ∧ id = 1#32 := ⟨_, _, by decide, rfl, by decide⟩

theorem witness_ProgramCopyIsIndependent : ∃ m m2 m3, (1#32 : Word) ≠ 0#32 ∧
    (demoMem 0#32).dup0 Config.default 1#32 = .ok m ∧ m.write 1#32 0#32 5#32 = .ok m2 ∧ m2.read 0#32 0#32 = .ok 7#32 ∧
    m.write 0#32 0#32 5#32 = .ok m3 ∧ m3.read 1#32 0#32 = .ok 7#32 :=
  ⟨_, _, _, by decide, rfl, rfl, by decide, rfl, by decide⟩

theorem witness_StoredInstructionRunsNext :
    let s := (withImage [0x20000019#32, 0x00000000#32]).setReg 3 1#32 |>.setReg 1 0x70000000#32
    Inv s ∧ s.status = .running ∧ s.mem.read 0#32 s.pc = .ok 0x20000019#32 ∧ decode 0x20000019#32 = .sstore 0 3 1 ∧
      s.reg 0 = 0#32 ∧ s.reg 3 = s.pc + 1#32 ∧ s.reg 3 < s.mem.segLen 0#32 := by decide

theorem witness_opcodes : (0x00000053#32 : Word).extractLsb 31 28 = 0#4 ∧ (0x10000153#32 : Word).extractLsb 31 28 = 1#4 ∧
    (0x2000009C#32 : Word).extractLsb 31 28 = 2#4 ∧ (0x300000CA#32 : Word).extractLsb 31 28 = 3#4 ∧
    (0x400000CA#32 : Word).extractLsb 31 28 = 4#4 ∧ (0x500000CA#32 : Word).extractLsb 31 28 = 5#4 ∧
    (0x600000CA#32 : Word).extractLsb 31 28 = 6#4 ∧ (0x70000000#32 : Word).extractLsb 31 28 = 7#4 ∧
    (0x80000011#32 : Word).extractLsb 31 28 = 8#4 ∧ (0x90000002#32 : Word).extractLsb 31 28 = 9#4 ∧
    (0xA0000001#32 : Word).extractLsb 31 28 = 10#4 ∧ (0xB0000003#32 : Word).extractLsb 31 28 = 11#4 ∧
    (0xC000000A#32 : Word).extractLsb 31 28 = 12#4 ∧ (0xD2000048#32 : Word).extractLsb 31 28 = 13#4 ∧
    (0xE0000000#32 : Word).extractLsb 31 28 = 14#4 ∧ (0xF0000000#32 : Word).extractLsb 31 28 = 15#4 := by decide

theorem witness_CmovResult : (31 < 32) ∧ (∃ t, exec (.cmov 1 2 1) (sample 0#32 5#32 9#32 0#32 0#32) = .next t ∧ t.reg 1 = 9#32) ∧
    ∃ t, exec (.cmov 1 2 3) (sample 0#32 5#32 9#32 0#32 0#32) = .next t ∧ t.reg 1 = 5#32 :=
  ⟨by decide, ⟨_, rfl, by decide⟩, _, rfl, by decide⟩

theorem witness_DivideResult : (sample 0#32 0#32 9#32 1#32 0#32).reg 3 ≠ 0#32 ∧ (sample 0#32 0#32 9#32 1#32 0#32).reg 4 = 0#32 ∧
    (∃ t, exec (.div 1 2 3) (sample 0#32 0#32 9#32 1#32 0#32) = .next t ∧ t.reg 1 = 9#32) ∧
    ∃ t, exec (.div 1 2 4) (sample 0#32 0#32 9#32 1#32 0#32) = .next t ∧ t.status ≠ .running :=
  ⟨by decide, by decide, ⟨_, rfl, by decide⟩, _, rfl, by decide⟩

theorem witness_SegmentLoadResult :
    let s := sample 0#32 1#32 2#32 3#32 0#32
    s.mem.slots[(s.reg 1).toNat]? = some (.mapped ⟨2#32, [(0, 7#32), (1, 130#32)]⟩) ∧ s.reg 4 < 2#32 ∧ s.reg 1 < 2#32 ∧
      2#32 ≤ s.reg 2 ∧ s.mem.slots[(s.reg 2).toNat]? = some .unmapped ∧ s.mem.slots.length ≤ (s.reg 3).toNat ∧
      look 5 (sample 0x10000149#32 1#32 2#32 3#32 0#32) = some (.running, 1#32, 130#32) := by decide

theorem witness_SegmentStoreResult : (sample 0#32 1#32 2#32 3#32 0#32).mem.wf ∧
    ∃ t, exec (.sstore 1 1 3) (sample 0#32 1#32 2#32 3#32 0#32) = .next t ∧ t.mem.read 1#32 1#32 = .ok 3#32 :=
  ⟨by decide, _, rfl, by decide⟩

/-- A core that has no slot left and room for four words. -/
abbrev tiny (len : Word) : State := (withImage [0#32] [] .eof ⟨some 5, 1⟩).setReg 2 len

theorem witness_MapResult : Inv (sample 0#32 4#32 0#32 0#32 0#32) ∧ (sample 0#32 4#32 0#32 0#32 0#32).mem.free = [2#32] ∧
    fitsLimit Config.default ((demoMem 0#32).totalWords + ((sample 0#32 4#32 0#32 0#32 0#32).reg 1).toNat) = true ∧
    Inv bootedImage ∧ bootedImage.mem.free = [] ∧ bootedImage.mem.slots.length < bootedImage.config.maxSlots := by decide

theorem witness_MapResult_full : Inv (tiny 4#32) ∧ (tiny 4#32).mem.free = [] ∧
    (tiny 4#32).config.maxSlots ≤ (tiny 4#32).mem.slots.length ∧
    fitsLimit (tiny 4#32).config ((tiny 4#32).mem.totalWords + ((tiny 4#32).reg 2).toNat) = true ∧
    Inv (tiny 5#32) ∧ fitsLimit (tiny 5#32).config ((tiny 5#32).mem.totalWords + ((tiny 5#32).reg 2).toNat) = false := by
  decide

theorem witness_UnmapResult :
    let s := sample 0#32 1#32 2#32 3#32 0#32
    s.reg 1 ≠ 0#32 ∧ s.mem.valid (s.reg 1) = true ∧ s.reg 4 = 0#32 ∧ s.reg 2 ≠ 0#32 ∧
      s.mem.slots[(s.reg 2).toNat]? = some .unmapped ∧ s.reg 3 ≠ 0#32 ∧ s.mem.slots.length ≤ (s.reg 3).toNat := by decide

theorem witness_OutputResult :
    ((sample 0#32 255#32 256#32 0#32 0#32).reg 1).toNat ≤ 255 ∧ 255 < ((sample 0#32 255#32 256#32 0#32 0#32).reg 2).toNat ∧
    (nextOf (exec (.output 1) (sample 0#32 255#32 256#32 0#32 0#32))).map (·.out) = some [0xFF#8] := by decide

theorem witness_InputResult :
    (withImage [] [255]).inp.items = 255 :: [] ∧ 255 ≤ 255 ∧ (withImage []).inp.items = [] ∧ (withImage []).inp.tail = .eof ∧
    (withImage [] [256]).inp.items = 256 :: [] ∧ 255 < 256 ∧ (withImage [] [] .stall).inp.tail = .stall ∧
    (nextOf (exec (.input 7) (withImage []))).map (·.reg 7) = some 0xFFFFFFFF#32 := by decide

theorem witness_LoadProgramZeroJumps : (sample 0#32 1#32 0#32 0#32 0#32).reg 2 = 0#32 ∧
    (nextOf (exec (.loadprog 2 1) (sample 0#32 1#32 0#32 0#32 0#32))).map (·.pc) = some 1#32 := by decide

theorem witness_LoadProgramReplaces :
    let s := sample 0#32 1#32 2#32 3#32 0#32
    let tight := { s with config := ⟨some 3, 3⟩ }
    Inv s ∧ s.reg 1 ≠ 0#32 ∧ s.mem.slots[(s.reg 1).toNat]? = some (.mapped ⟨2#32, [(0, 7#32), (1, 130#32)]⟩) ∧
      fitsLimit s.config (s.mem.totalWords - (s.mem.segLen 0#32).toNat + (2#32 : Word).toNat) = true ∧
      s.reg 2 ≠ 0#32 ∧ s.mem.slots[(s.reg 2).toNat]? = some .unmapped ∧ s.reg 3 ≠ 0#32 ∧
      s.mem.slots.length ≤ (s.reg 3).toNat ∧ Inv tight ∧
      fitsLimit tight.config (tight.mem.totalWords - (tight.mem.segLen 0#32).toNat + (2#32 : Word).toNat) = false := by decide

theorem witness_InvalidOpcodeFaults : (Instr.invalid14 = .invalid14 ∨ Instr.invalid14 = .invalid15) ∧
    (Instr.invalid15 = .invalid14 ∨ Instr.invalid15 = .invalid15) := by decide

theorem witness_ConditionalJumpIdiom : (4 : Reg) ≠ 0 ∧ (sample 0#32 0#32 9#32 3#32 4#32).reg 0 = 0#32 := by decide

theorem witness_ExitStatusZeroExactlyOnHalt : (State.reset.takeFault .divideByZero).status ≠ .running ∧
    (State.reset.takeFault .divideByZero).status = .faulted ⟨.divideByZero, 0#32, none⟩ ∧ State.reset.status = .running := by
  decide

end Sys2Proof.Tests
end

section
/-! PROOF. The bit-field codec of spec/00_scope.md: `get_field` and `set_field` (R8) for every field inside a word. -/

namespace Sys2Proof

/-- R8 `get_field` as a number. -/
theorem toNat_getField (w : Word) (width lsb : Nat) :
    (getField w width lsb).toNat = w.toNat / 2 ^ lsb % 2 ^ width := by
  rw [getField, BitVec.extractLsb'_toNat, Nat.shiftRight_eq_div_pow]

/-- R9: widening to a word keeps the number. -/
theorem toNat_zext32 {n : Nat} (v : BitVec n) (h : n ≤ 32) : (zext32 v).toNat = v.toNat :=
  BitVec.toNat_setWidth_of_le h

/-- R8: a field set to any word and read back is the low bits of that word. -/
theorem getField_setField_eq_setWidth (w v : Word) {width lsb : Nat} (h : width + lsb ≤ 32) :
    getField (setField w width lsb v) width lsb = v.setWidth width := by
  apply BitVec.eq_of_getLsbD_eq
  intro i hi
  have inField : lsb ≤ lsb + i ∧ lsb + i < lsb + width := by omega
  rw [getLsbD_getField, getLsbD_setField _ _ _ _ _ (by omega), if_pos inField, Nat.add_sub_cancel_left,
    BitVec.getLsbD_setWidth]

/-- Settles O1: the field's number, the field read back, and the bits inside and outside the field, each from its own
law of the codec. -/
theorem fieldWriteReadBack : Obligations.FieldWriteReadBack := by
  unfold Obligations.FieldWriteReadBack
  intro w v width lsb h
  refine ⟨?_, ?_, fun i hi => getLsbD_setField w v width lsb i hi⟩
  · rw [toNat_zext32 _ (by omega), toNat_getField]
  · rw [getField_setField_eq_setWidth w v h, BitVec.toNat_setWidth]

end Sys2Proof
end

section
/-! PROOF. The decoder's outputs of spec/30_encoding.md: the format the opcode selects (R63) and the bits of the word at
which each field stands (R62, R64, R65). -/

namespace Sys2Proof

/-! ## The format the opcode selects (R63) -/

theorem Fields.fmt_eq_r3 {d : Fields} (h : d.op.toNat ≤ 12) : d.fmt = .r3 := if_pos h

theorem Fields.fmt_eq_imm {d : Fields} (h : d.op.toNat = 13) : d.fmt = .imm := by
  simp [Fields.fmt, h]

theorem Fields.fmt_eq_invalid {d : Fields} (h : 14 ≤ d.op.toNat) : d.fmt = .invalid := by
  rw [Fields.fmt, if_neg (by omega), if_neg (by omega)]

/-! ## Where each field stands in the word, as the bit ranges of R7 -/

theorem fieldsOf_op (w : Word) : (fieldsOf w).op = w.extractLsb 31 28 := rfl
theorem fieldsOf_a (w : Word) : (fieldsOf w).a = w.extractLsb 8 6 := rfl
theorem fieldsOf_b (w : Word) : (fieldsOf w).b = w.extractLsb 5 3 := rfl
theorem fieldsOf_c (w : Word) : (fieldsOf w).c = w.extractLsb 2 0 := rfl
theorem fieldsOf_ia (w : Word) : (fieldsOf w).ia = w.extractLsb 27 25 := rfl
theorem fieldsOf_imm (w : Word) : (fieldsOf w).imm = w.extractLsb 24 0 := rfl

/-- Settles O3: the format from the opcode's range, each field from its place in the word. -/
theorem decoderFormatAndFields : Obligations.DecoderFormatAndFields := by
  unfold Obligations.DecoderFormatAndFields
  intro w
  refine ⟨fieldsOf_op w, fun hR3 => ?r3, fun hImm => ?imm, fun hInvalid => ?invalid⟩
  case r3 => exact ⟨Fields.fmt_eq_r3 hR3, fieldsOf_a w, fieldsOf_b w, fieldsOf_c w⟩
  case imm => exact ⟨Fields.fmt_eq_imm hImm, fieldsOf_ia w, fieldsOf_imm w⟩
  case invalid =>
    have opcode_ge : 14 ≤ (fieldsOf w).op.toNat := by rw [fieldsOf_op]; omega
    exact Fields.fmt_eq_invalid opcode_ge

end Sys2Proof
end

section
/-! PROOF. The number a canonical word stands for (spec/30_encoding.md R75): `set_field` into a field that is still zero
adds the field's value at the field's place. -/

namespace Sys2Proof

@[simp] theorem getField_zero (width lsb : Nat) : getField 0#32 width lsb = 0#width :=
  BitVec.extractLsb'_zero

/-- R8: a zero field of a word is zero bit by bit. -/
theorem getLsbD_eq_false_of_getField_eq_zero {w : Word} {width lsb i : Nat} (zero : getField w width lsb = 0#width)
    (inField : lsb ≤ i ∧ i < lsb + width) : w.getLsbD i = false := by
  have bit : (getField w width lsb).getLsbD (i - lsb) = false := by rw [zero, BitVec.getLsbD_zero]
  have inWidth : i - lsb < width := by omega
  rwa [getLsbD_getField, decide_eq_true inWidth, Bool.true_and, Nat.add_sub_cancel' inField.1] at bit

/-- R9: a widened value moved to a field's place stands inside the field only. -/
theorem getLsbD_zext32_shiftLeft {width lsb i : Nat} (v : BitVec width) (hi : i < 32) :
    (zext32 v <<< lsb).getLsbD i = if lsb ≤ i ∧ i < lsb + width then (zext32 v).getLsbD (i - lsb) else false := by
  have inWord : i - lsb < 32 := by omega
  rw [BitVec.getLsbD_shiftLeft, decide_eq_true hi, Bool.true_and, zext32, BitVec.getLsbD_setWidth, decide_eq_true inWord,
    Bool.true_and]
  split
  next inField => simp [Nat.not_lt.mpr inField.1]
  next outside =>
    by_cases below : i < lsb
    · simp [below]
    · have above : width ≤ i - lsb := by omega
      rw [BitVec.getLsbD_of_ge v _ above, Bool.and_false]

/-- R9: a value that fits a field loses no bit on its way to the field's place. -/
theorem toNat_zext32_shiftLeft {width lsb : Nat} (v : BitVec width) (h : width + lsb ≤ 32) :
    (zext32 v <<< lsb).toNat = v.toNat * 2 ^ lsb := by
  have fits : v.toNat * 2 ^ lsb < 2 ^ 32 :=
    calc v.toNat * 2 ^ lsb < 2 ^ width * 2 ^ lsb := Nat.mul_lt_mul_of_pos_right v.isLt (Nat.two_pow_pos lsb)
      _ = 2 ^ (width + lsb) := (Nat.pow_add 2 width lsb).symm
      _ ≤ 2 ^ 32 := Nat.pow_le_pow_right (by omega) h
  rw [BitVec.toNat_shiftLeft, toNat_zext32 v (by omega), Nat.shiftLeft_eq, Nat.mod_eq_of_lt fits]

/-- R8: `set_field` into a zero field only adds bits, so it is a bitwise or. -/
theorem setField_eq_or_of_getField_eq_zero {w : Word} {width lsb : Nat} (v : BitVec width)
    (zero : getField w width lsb = 0#width) : setField w width lsb (zext32 v) = w ||| zext32 v <<< lsb := by
  apply BitVec.eq_of_getLsbD_eq
  intro i hi
  rw [getLsbD_setField _ _ _ _ _ hi, BitVec.getLsbD_or, getLsbD_zext32_shiftLeft v hi]
  split
  next inField => rw [getLsbD_eq_false_of_getField_eq_zero zero inField, Bool.false_or]
  next => rw [Bool.or_false]

/-- R8: a word with a zero field shares no bit with a value moved to the field's place. -/
theorem and_zext32_shiftLeft_eq_zero {w : Word} {width lsb : Nat} (v : BitVec width)
    (zero : getField w width lsb = 0#width) : w &&& zext32 v <<< lsb = 0#32 := by
  apply BitVec.eq_of_getLsbD_eq
  intro i hi
  rw [BitVec.getLsbD_and, getLsbD_zext32_shiftLeft v hi, BitVec.getLsbD_zero]
  split
  next inField => rw [getLsbD_eq_false_of_getField_eq_zero zero inField, Bool.false_and]
  next => rw [Bool.and_false]

/-- R8, R9: `set_field` into a zero field adds the value at the field's place; no bit is carried or cut off. -/
theorem toNat_setField_of_getField_eq_zero {w : Word} {width lsb : Nat} (v : BitVec width) (h : width + lsb ≤ 32)
    (zero : getField w width lsb = 0#width) :
    (setField w width lsb (zext32 v)).toNat = w.toNat + v.toNat * 2 ^ lsb := by
  have disjoint := and_zext32_shiftLeft_eq_zero v zero
  rw [setField_eq_or_of_getField_eq_zero v zero, ← BitVec.add_eq_or_of_and_eq_zero _ _ disjoint,
    BitVec.toNat_add_of_and_eq_zero disjoint, toNat_zext32_shiftLeft v h]

/-- R75: the immediate-load word with its opcode 13 written as a 4-bit field like the others. -/
theorem encImm_eq_setField (a : Reg) (v : Imm25) :
    encImm a v = setField (setField (setField 0#32 4 28 (zext32 13#4)) 3 25 (zext32 a)) 25 0 (zext32 v) := rfl

/-- R75: the value of the immediate-load word; each of its three fields is zero when it is set. -/
theorem toNat_encImm (a : Reg) (v : Imm25) : (encImm a v).toNat = 0xD0000000 + a.toNat * 2 ^ 25 + v.toNat := by
  rw [encImm_eq_setField, toNat_setField_of_getField_eq_zero v (by omega) ?immZero,
    toNat_setField_of_getField_eq_zero a (by omega) ?regZero,
    toNat_setField_of_getField_eq_zero 13#4 (by omega) (getField_zero 4 28)]
  case regZero => rw [getField_setField_other _ _ (by omega) (by omega), getField_zero]
  case immZero =>
    rw [getField_setField_other _ _ (by omega) (by omega), getField_setField_other _ _ (by omega) (by omega),
      getField_zero]
  simp

/-- Settles O8: the nested form is the encoder's definition, and the value is the sum of the three fields at their
places. -/
theorem immediateWordValue : Obligations.ImmediateWordValue := by
  unfold Obligations.ImmediateWordValue
  exact fun a v => ⟨rfl, toNat_encImm a v⟩

end Sys2Proof
end

section
/-! PROOF. The sequencer of spec/40_sequencer.md: when a step occurs. -/

namespace Sys2Proof.Machine

/-- Settles O20: a step that answers a next state began in Running (`step_cases`). -/
theorem noStepAfterTheEnd : Obligations.NoStepAfterTheEnd := by
  unfold Obligations.NoStepAfterTheEnd
  intro s hEnded t hStep
  obtain ⟨hRunning, -⟩ := step_cases hStep
  exact hEnded hRunning

end Sys2Proof.Machine
end

section
/-! PROOF. The register moves of spec/41_move.md: both end in one register write followed by the pc's advance. -/

namespace Sys2Proof

theorem decode_cmov {w : Word} (h : w.extractLsb 31 28 = 0#4) :
    decode w = .cmov (w.extractLsb 8 6) (w.extractLsb 5 3) (w.extractLsb 2 0) :=
  Fields.select_cmov (fieldsOf w) h

theorem decode_lv {w : Word} (h : w.extractLsb 31 28 = 13#4) :
    decode w = .lv (w.extractLsb 27 25) (w.extractLsb 24 0) :=
  Fields.select_lv (fieldsOf w) h

end Sys2Proof

namespace Sys2Proof.Machine

/-- R10: writing a register's own value changes nothing. -/
@[simp] theorem State.setReg_reg_self (s : State) (r : Reg) : s.setReg r (s.reg r) = s := by
  refine State.ext_of_reg s _ (fun d => ?_) rfl rfl rfl rfl rfl rfl
  rw [State.reg_setReg]
  split
  next same => rw [same]
  next => rfl

/-- R10, R84: the frame of one register write and the pc's advance. -/
theorem setReg_advance_frame (s : State) (a : Reg) (v : Word) :
    SameRegsBut a s (s.setReg a v).advance ∧ (s.setReg a v).advance.pc = s.pc + 1#32 ∧
      SameStore s (s.setReg a v).advance ∧ SamePorts s (s.setReg a v).advance ∧ SameStatus s (s.setReg a v).advance := by
  refine ⟨fun r other => ?_, rfl, ⟨fun _ _ => rfl, rfl, rfl⟩, ⟨rfl, rfl⟩, ⟨rfl, rfl⟩⟩
  rw [State.reg_advance, State.reg_setReg, if_neg other]

theorem reg_setReg_advance_same (s : State) (a : Reg) (v : Word) : (s.setReg a v).advance.reg a = v := by
  rw [State.reg_advance, State.reg_setReg, if_pos rfl]

/-- R91: CMOV as one unconditional write; where the condition fails, writing nothing is writing x[A] back to itself. -/
theorem exec_cmov_eq (a b c : Reg) (s : State) :
    exec (.cmov a b c) s = .next (s.setReg a (if s.reg c ≠ 0#32 then s.reg b else s.reg a)).advance := by
  simp only [exec, execCmov, condHolds_iff]
  split
  next => rfl
  next => rw [State.setReg_reg_self]

/-- R92. -/
theorem exec_lv_eq (a : Reg) (imm : Imm25) (s : State) :
    exec (.lv a imm) s = .next (s.setReg a (immOperand imm)).advance := rfl

/-- Settles O41: CMOV is one register write whose value the condition selects (`exec_cmov_eq`). -/
theorem cmovResult : Obligations.CmovResult := by
  unfold Obligations.CmovResult
  exact ⟨fun _ hOp => decode_cmov hOp, fun a b c s =>
    ⟨_, exec_cmov_eq a b c s, reg_setReg_advance_same s a _, setReg_advance_frame s a _⟩⟩

/-- Settles O42: LV is one register write of the immediate, whose value zero extension keeps (R66). -/
theorem loadValueResult : Obligations.LoadValueResult := by
  unfold Obligations.LoadValueResult
  refine ⟨fun _ hOp => decode_lv hOp, fun a imm s => ⟨_, exec_lv_eq a imm s, ?value, setReg_advance_frame s a _⟩⟩
  case value => rw [reg_setReg_advance_same, immOperand_toNat]

end Sys2Proof.Machine
end

section
/-! PROOF. Arithmetic and logic of spec/43_arithmetic.md: ADD, MUL and NAND each end in one register write of their
result followed by the pc's advance, whatever the operands are. -/

namespace Sys2Proof

theorem decode_add {w : Word} (h : w.extractLsb 31 28 = 3#4) :
    decode w = .add (w.extractLsb 8 6) (w.extractLsb 5 3) (w.extractLsb 2 0) :=
  Fields.select_add (fieldsOf w) h

theorem decode_mul {w : Word} (h : w.extractLsb 31 28 = 4#4) :
    decode w = .mul (w.extractLsb 8 6) (w.extractLsb 5 3) (w.extractLsb 2 0) :=
  Fields.select_mul (fieldsOf w) h

theorem decode_nand {w : Word} (h : w.extractLsb 31 28 = 6#4) :
    decode w = .nand (w.extractLsb 8 6) (w.extractLsb 5 3) (w.extractLsb 2 0) :=
  Fields.select_nand (fieldsOf w) h

end Sys2Proof

namespace Sys2Proof.Machine

/-- R95. -/
theorem exec_add_eq (a b c : Reg) (s : State) :
    exec (.add a b c) s = .next (s.setReg a (s.reg b + s.reg c)).advance := rfl

/-- R96. -/
theorem exec_mul_eq (a b c : Reg) (s : State) :
    exec (.mul a b c) s = .next (s.setReg a (s.reg b * s.reg c)).advance := rfl

/-- R98. -/
theorem exec_nand_eq (a b c : Reg) (s : State) :
    exec (.nand a b c) s = .next (s.setReg a (~~~(s.reg b &&& s.reg c))).advance := rfl

/-- R98: the result of NAND bit by bit. The bound is needed: past bit 31 every bit of a word is 0. -/
theorem getLsbD_not_and (u v : Word) {k : Nat} (hk : k < 32) :
    (~~~(u &&& v)).getLsbD k = !(u.getLsbD k && v.getLsbD k) := by
  rw [BitVec.getLsbD_not, decide_eq_true hk, Bool.true_and, BitVec.getLsbD_and]

/-- Settles O43: ADD is one register write of the words' sum, which wraps modulo 2^32 (R6). -/
theorem addResult : Obligations.AddResult := by
  unfold Obligations.AddResult
  refine ⟨fun _ hOp => decode_add hOp, fun a b c s => ⟨_, exec_add_eq a b c s, ?sum, setReg_advance_frame s a _⟩⟩
  case sum => rw [reg_setReg_advance_same, BitVec.toNat_add]

/-- Settles O44: MUL is one register write of the words' product, which wraps modulo 2^32 (R6). -/
theorem multiplyResult : Obligations.MultiplyResult := by
  unfold Obligations.MultiplyResult
  refine ⟨fun _ hOp => decode_mul hOp, fun a b c s => ⟨_, exec_mul_eq a b c s, ?product, setReg_advance_frame s a _⟩⟩
  case product => rw [reg_setReg_advance_same, BitVec.toNat_mul]

/-- Settles O46: NAND is one register write of the complement of the conjunction, read bit by bit
(`getLsbD_not_and`). -/
theorem nandResult : Obligations.NandResult := by
  unfold Obligations.NandResult
  refine ⟨fun _ hOp => decode_nand hOp, fun a b c s => ⟨_, exec_nand_eq a b c s, ?bits, setReg_advance_frame s a _⟩⟩
  case bits =>
    intro k hk
    rw [reg_setReg_advance_same, getLsbD_not_and _ _ hk]

end Sys2Proof.Machine
end

section
/-! PROOF. Reset and boot of spec/70_reset_and_hazards.md: the state a launch starts in (R126, R127) and the loader's
words (R131). -/

namespace Sys2Proof

/-- R9 for one byte: concatenation multiplies the number in front of it by 2^8. -/
theorem toNat_append_byte {n : Nat} (v : BitVec n) (e : Byte) : (v ++ e).toNat = v.toNat * 2 ^ 8 + e.toNat := by
  rw [BitVec.toNat_append, ← Nat.shiftLeft_add_eq_or_of_lt e.isLt, Nat.shiftLeft_eq]

/-- R9, R131: the number of four concatenated bytes. -/
theorem toNat_concatBytes (a b c d : Byte) :
    (concatBytes a b c d).toNat = a.toNat * 2 ^ 24 + b.toNat * 2 ^ 16 + c.toNat * 2 ^ 8 + d.toNat := by
  rw [concatBytes, toNat_append_byte, toNat_append_byte, toNat_append_byte]
  omega

end Sys2Proof

namespace Sys2Proof.Machine

/-- R126: a launch leaves every register 0, as reset does (`State.reg_reset`). -/
@[simp] theorem reg_launch (cfg : Config) (ws : List Word) (input : InputPort) (r : Reg) :
    (launch cfg ws input).reg r = 0#32 := Vector.getElem_replicate r.isLt

/-- R134: an image that boots is launched with the loader's words, whose number is within both bounds of R133. -/
theorem boot_eq_ok {cfg : Config} {image : List Byte} {input : InputPort} {s : State} :
    boot cfg image input = .ok s ↔
      ∃ ws, load image = some ws ∧ ws.length < 2 ^ 32 ∧ fitsLimit cfg ws.length = true ∧ s = launch cfg ws input := by
  unfold boot
  cases load image with
  | none => simp
  | some ws =>
    simp only [Option.some.injEq, exists_eq_left']
    split
    next long => exact iff_of_false nofun fun ⟨short, _⟩ => by omega
    next notLong =>
      split
      next fits =>
        constructor
        · rintro ⟨⟩
          exact ⟨by omega, fits, rfl⟩
        · rintro ⟨-, -, rfl⟩
          rfl
      next exceeds => exact iff_of_false nofun fun ⟨_, fits, _⟩ => exceeds fits

/-- R81: where the core is Running and segment 0 reads at the pc, the step executes the decoded word read there. -/
theorem step_eq_exec {s : State} {w : Word} (running : s.status = .running) (word : s.mem.read 0#32 s.pc = .ok w) :
    step s = exec (decode w) s := by
  unfold step
  rw [running, Memory.fetch_eq_some.mpr word]

/-- Settles O12: an accepted image boots into a launch (`boot_eq_ok`), whose registers and pc are 0 and which runs, so
its first fetch reads word 0 of segment 0 (`step_eq_exec`). -/
theorem resetRegistersAndPcZero : Obligations.ResetRegistersAndPcZero := by
  unfold Obligations.ResetRegistersAndPcZero
  refine ⟨⟨State.reg_reset, rfl⟩, fun cfg image input s hBoot => ?_⟩
  obtain ⟨ws, -, -, -, rfl⟩ := boot_eq_ok.mp hBoot
  exact ⟨reg_launch cfg ws input, rfl, fun _ word => step_eq_exec rfl word⟩

/-- R131: the loader accepts every byte sequence without a partial word, and gives one word for four bytes. -/
theorem exists_load_of_length (n : Nat) (bytes : List Byte) (h : bytes.length = 4 * n) :
    ∃ ws, load bytes = some ws ∧ ws.length = n := by
  induction n generalizing bytes with
  | zero =>
    obtain rfl := List.length_eq_zero_iff.mp h
    exact ⟨[], rfl, rfl⟩
  | succ n ih =>
    match bytes, h with
    | a :: b :: c :: d :: rest, h =>
      have restLength : rest.length = 4 * n := by simp only [List.length_cons] at h; omega
      obtain ⟨ws, loaded, count⟩ := ih rest restLength
      exact ⟨concatBytes a b c d :: ws, by rw [load, loaded, Option.map_some], by rw [List.length_cons, count]⟩

/-- R131: word `k` is made of the bytes at `4k` to `4k + 3`. Past the last word both sides are 0. -/
theorem getD_of_load {bytes : List Byte} {ws : List Word} (h : load bytes = some ws) (k : Nat) :
    ws.getD k 0#32 = concatBytes (bytes.getD (4 * k) 0#8) (bytes.getD (4 * k + 1) 0#8) (bytes.getD (4 * k + 2) 0#8)
      (bytes.getD (4 * k + 3) 0#8) := by
  induction bytes using load.induct generalizing ws k with
  | case1 =>
    obtain rfl : [] = ws := Option.some.inj h
    simp only [List.getD_nil]
    rfl
  | case2 a b c d rest ih =>
    rw [load, Option.map_eq_some_iff] at h
    obtain ⟨ws', loaded, rfl⟩ := h
    cases k with
    | zero => rfl
    | succ k => exact ih loaded k
  | case3 bytes notNil notFour =>
    rw [load] at h
    · cases h
    · exact notNil
    · exact notFour

/-- Settles O14: the loader gives n words (`exists_load_of_length`), and word k is its four bytes (`getD_of_load`), the
first the most significant (`toNat_concatBytes`). -/
theorem loaderGroupsBigEndian : Obligations.LoaderGroupsBigEndian := by
  unfold Obligations.LoaderGroupsBigEndian
  intro bytes n hLength
  obtain ⟨ws, loaded, count⟩ := exists_load_of_length n bytes hLength
  refine ⟨ws, loaded, count, fun k _ => ?value⟩
  case value => rw [getD_of_load loaded k, toNat_concatBytes]

end Sys2Proof.Machine
end

section
/-! PROOF. The opcode map read from the word (spec/30_encoding.md R69): the instructions whose decoding no section above
gives, and that the fields an opcode does not use have no influence (R70, R71). -/

namespace Sys2Proof

theorem decode_sload {w : Word} (h : w.extractLsb 31 28 = 1#4) :
    decode w = .sload (w.extractLsb 8 6) (w.extractLsb 5 3) (w.extractLsb 2 0) :=
  Fields.select_sload (fieldsOf w) h

theorem decode_sstore {w : Word} (h : w.extractLsb 31 28 = 2#4) :
    decode w = .sstore (w.extractLsb 8 6) (w.extractLsb 5 3) (w.extractLsb 2 0) :=
  Fields.select_sstore (fieldsOf w) h

theorem decode_div {w : Word} (h : w.extractLsb 31 28 = 5#4) :
    decode w = .div (w.extractLsb 8 6) (w.extractLsb 5 3) (w.extractLsb 2 0) :=
  Fields.select_div (fieldsOf w) h

theorem decode_halt {w : Word} (h : w.extractLsb 31 28 = 7#4) : decode w = .halt :=
  Fields.select_halt (fieldsOf w) h

theorem decode_map {w : Word} (h : w.extractLsb 31 28 = 8#4) :
    decode w = .map (w.extractLsb 5 3) (w.extractLsb 2 0) :=
  Fields.select_map (fieldsOf w) h

theorem decode_unmap {w : Word} (h : w.extractLsb 31 28 = 9#4) : decode w = .unmap (w.extractLsb 2 0) :=
  Fields.select_unmap (fieldsOf w) h

theorem decode_output {w : Word} (h : w.extractLsb 31 28 = 10#4) : decode w = .output (w.extractLsb 2 0) :=
  Fields.select_output (fieldsOf w) h

theorem decode_input {w : Word} (h : w.extractLsb 31 28 = 11#4) : decode w = .input (w.extractLsb 2 0) :=
  Fields.select_input (fieldsOf w) h

theorem decode_loadprog {w : Word} (h : w.extractLsb 31 28 = 12#4) :
    decode w = .loadprog (w.extractLsb 5 3) (w.extractLsb 2 0) :=
  Fields.select_loadprog (fieldsOf w) h

theorem decode_invalid14 {w : Word} (h : w.extractLsb 31 28 = 14#4) : decode w = .invalid14 :=
  Fields.select_invalid14 (fieldsOf w) h

theorem decode_invalid15 {w : Word} (h : w.extractLsb 31 28 = 15#4) : decode w = .invalid15 :=
  Fields.select_invalid15 (fieldsOf w) h

/-- R64, R70: the opcode and the register fields decide a three-register instruction. -/
theorem Fields.select_congr_r3 {d e : Fields} (isR3 : d.op.toNat ≤ 12) (op : e.op = d.op) (a : e.a = d.a)
    (b : e.b = d.b) (c : e.c = d.c) : e.select = d.select := by
  unfold Fields.select
  rw [op, a, b, c]
  interval_cases d.op.toNat <;> rfl

/-- R71: the opcode alone decides an INVALID word. -/
theorem Fields.select_congr_invalid {d e : Fields} (isInvalid : 14 ≤ d.op.toNat) (op : e.op = d.op) :
    e.select = d.select := by
  have bound : d.op.toNat ≤ 15 := by have := d.op.isLt; omega
  unfold Fields.select
  rw [op]
  interval_cases d.op.toNat <;> rfl

end Sys2Proof
end

section
/-! PROOF. The round trip of spec/30_encoding.md section 4: the decoder's outputs on the canonical words, and decoding
what was encoded. -/

namespace Sys2Proof

/-! ## The fields of a canonical word -/

@[simp] theorem fieldsOf_encR3_op (op : BitVec 4) (a b c : Reg) : (fieldsOf (encR3 op a b c)).op = op :=
  opcode_encR3 op a b c

@[simp] theorem fieldsOf_encR3_a (op : BitVec 4) (a b c : Reg) : (fieldsOf (encR3 op a b c)).a = a := by
  simp only [fieldsOf, encR3]
  rw [getField_setField_other _ _ (by omega) (by omega), getField_setField_other _ _ (by omega) (by omega),
    getField_setField_same _ _ (by omega)]

@[simp] theorem fieldsOf_encR3_b (op : BitVec 4) (a b c : Reg) : (fieldsOf (encR3 op a b c)).b = b := by
  simp only [fieldsOf, encR3]
  rw [getField_setField_other _ _ (by omega) (by omega), getField_setField_same _ _ (by omega)]

@[simp] theorem fieldsOf_encR3_c (op : BitVec 4) (a b c : Reg) : (fieldsOf (encR3 op a b c)).c = c :=
  getField_setField_same _ _ (by omega)

@[simp] theorem fieldsOf_encImm_op (a : Reg) (imm : Imm25) : (fieldsOf (encImm a imm)).op = 13#4 :=
  opcode_encImm a imm

@[simp] theorem fieldsOf_encImm_ia (a : Reg) (imm : Imm25) : (fieldsOf (encImm a imm)).ia = a := by
  simp only [fieldsOf, encImm]
  rw [getField_setField_other _ _ (by omega) (by omega), getField_setField_same _ _ (by omega)]

@[simp] theorem fieldsOf_encImm_imm (a : Reg) (imm : Imm25) : (fieldsOf (encImm a imm)).imm = imm :=
  getField_setField_same _ _ (by omega)

/-- Settles O4: each field of a canonical word was written last into its own bits or is untouched by the later writes. -/
theorem fieldsRoundTrip : Obligations.FieldsRoundTrip := by
  unfold Obligations.FieldsRoundTrip
  refine ⟨fun op a b c isR3 => ?r3, fun a v => ?imm⟩
  case r3 => exact ⟨Fields.fmt_eq_r3 (by simpa using isR3), by simp, by simp, by simp, by simp⟩
  case imm => exact ⟨Fields.fmt_eq_imm (by simp), by simp, by simp, by simp⟩

/-! ## Decoding what was encoded -/

/-- R74: a canonical three-register word decodes as its fields do; the immediate's fields are not looked at. -/
theorem decode_encR3 (op : BitVec 4) (a b c : Reg) (isR3 : op.toNat ≤ 12) :
    decode (encR3 op a b c) = Fields.select { op := op, a := a, b := b, c := c, ia := 0, imm := 0 } :=
  Fields.select_congr_r3 isR3 (by simp) (by simp) (by simp) (by simp)

/-- R75. -/
theorem decode_encImm (a : Reg) (imm : Imm25) : decode (encImm a imm) = .lv a imm := by
  rw [decode, Fields.select_lv _ (by simp), fieldsOf_encImm_ia, fieldsOf_encImm_imm]

/-- R69, R74, R75: decoding gives back the instruction that was encoded. -/
@[simp] theorem decode_encode (i : Instr) : decode (encode i) = i := by
  cases i with
  | cmov a b c => exact decode_encR3 0 a b c (by decide)
  | sload a b c => exact decode_encR3 1 a b c (by decide)
  | sstore a b c => exact decode_encR3 2 a b c (by decide)
  | add a b c => exact decode_encR3 3 a b c (by decide)
  | mul a b c => exact decode_encR3 4 a b c (by decide)
  | div a b c => exact decode_encR3 5 a b c (by decide)
  | nand a b c => exact decode_encR3 6 a b c (by decide)
  | halt => exact decode_encR3 7 0 0 0 (by decide)
  | map b c => exact decode_encR3 8 0 b c (by decide)
  | unmap c => exact decode_encR3 9 0 0 c (by decide)
  | output c => exact decode_encR3 10 0 0 c (by decide)
  | input c => exact decode_encR3 11 0 0 c (by decide)
  | loadprog b c => exact decode_encR3 12 0 b c (by decide)
  | lv a imm => exact decode_encImm a imm
  | invalid14 => exact decode_invalid14 (opcode_encR3 14 0 0 0)
  | invalid15 => exact decode_invalid15 (opcode_encR3 15 0 0 0)

/-- Settles O5: the canonical word's fields are the instruction's operands, and its opcode selects the constructor
(`decode_encode`). -/
theorem decodeEncodeRoundTrip : Obligations.DecodeEncodeRoundTrip := by
  unfold Obligations.DecodeEncodeRoundTrip
  exact decode_encode

/-- Settles O2: fifteen closed words, each decoded by evaluation. -/
theorem specWordsDecode : Obligations.SpecWordsDecode := by
  unfold Obligations.SpecWordsDecode
  decide

end Sys2Proof
end

section
/-! PROOF. Ignored bits and canonical words of spec/30_encoding.md sections 3 and 4: what decoding does not look at, and
which words the encoder writes. -/

namespace Sys2Proof

/-! ## Replacing ignored bits -/

/-- R62: writing below bit 28 keeps the opcode. -/
theorem opcode_setField (w v : Word) {width lsb : Nat} (below : lsb + width ≤ 28) :
    (setField w width lsb v).extractLsb 31 28 = w.extractLsb 31 28 :=
  getField_setField_other (width := 4) (lsb := 28) w v (by omega) (.inr below)

/-- R64: writing above bit 2 keeps field C. -/
theorem fieldC_setField (w v : Word) {width lsb : Nat} (above : 3 ≤ lsb) :
    (setField w width lsb v).extractLsb 2 0 = w.extractLsb 2 0 :=
  getField_setField_other (width := 3) (lsb := 0) w v (by omega) (.inl above)

/-- R64: writing above bit 5 keeps field B. -/
theorem fieldB_setField (w v : Word) {width lsb : Nat} (above : 6 ≤ lsb) :
    (setField w width lsb v).extractLsb 5 3 = w.extractLsb 5 3 :=
  getField_setField_other (width := 3) (lsb := 3) w v (by omega) (.inl above)

/-- R64: writing above bit 8 keeps field A. -/
theorem fieldA_setField (w v : Word) {width lsb : Nat} (above : 9 ≤ lsb) :
    (setField w width lsb v).extractLsb 8 6 = w.extractLsb 8 6 :=
  getField_setField_other (width := 3) (lsb := 6) w v (by omega) (.inl above)

/-- The opcode as a 4-bit vector, from its number. -/
theorem opcode_eq_of_toNat {w : Word} {n : Nat} (h : (w.extractLsb 31 28).toNat = n) :
    w.extractLsb 31 28 = BitVec.ofNat 4 n := by
  rw [← h, BitVec.ofNat_toNat, BitVec.setWidth_eq]

/-- Settles O7: the write keeps the opcode and every field that opcode uses, so both words select one instruction. -/
theorem ignoredBitsHaveNoEffect : Obligations.IgnoredBitsHaveNoEffect := by
  unfold Obligations.IgnoredBitsHaveNoEffect
  intro w v
  refine ⟨fun isR3 => ?bits27to9, fun isHalt => ?halt, fun isBC => ?bc, fun isC => ?c, fun isInvalid => ?invalid⟩
  case bits27to9 =>
    exact Fields.select_congr_r3 isR3 (opcode_setField w v (by omega)) (fieldA_setField w v (by omega))
      (fieldB_setField w v (by omega)) (fieldC_setField w v (by omega))
  case halt =>
    have op := opcode_eq_of_toNat isHalt
    rw [decode_halt op, decode_halt ((opcode_setField w v (by omega)).trans op)]
  case bc =>
    rcases isBC with h | h <;> have op := opcode_eq_of_toNat h <;>
      have op' := (opcode_setField w v (width := 3) (lsb := 6) (by omega)).trans op
    · rw [decode_map op, decode_map op', fieldB_setField w v (by omega), fieldC_setField w v (by omega)]
    · rw [decode_loadprog op, decode_loadprog op', fieldB_setField w v (by omega), fieldC_setField w v (by omega)]
  case c =>
    rcases isC with h | h | h <;> have op := opcode_eq_of_toNat h <;>
      have op' := (opcode_setField w v (width := 6) (lsb := 3) (by omega)).trans op
    · rw [decode_unmap op, decode_unmap op', fieldC_setField w v (by omega)]
    · rw [decode_output op, decode_output op', fieldC_setField w v (by omega)]
    · rw [decode_input op, decode_input op', fieldC_setField w v (by omega)]
  case invalid => exact Fields.select_congr_invalid isInvalid (opcode_setField w v (by omega))

/-! ## Words equal field by field -/

/-- R8: equal fields have equal bits. -/
theorem getLsbD_eq_of_getField_eq {w w' : Word} {width lsb i : Nat}
    (same : getField w width lsb = getField w' width lsb) (inField : lsb ≤ i ∧ i < lsb + width) : w.getLsbD i = w'.getLsbD i := by
  have bit : (getField w width lsb).getLsbD (i - lsb) = (getField w' width lsb).getLsbD (i - lsb) := by rw [same]
  have inWidth : i - lsb < width := by omega
  rwa [getLsbD_getField, getLsbD_getField, decide_eq_true inWidth, Bool.true_and, Bool.true_and,
    Nat.add_sub_cancel' inField.1] at bit

/-- R8: a field is zero exactly when its bits are. -/
theorem getField_eq_zero_iff {w : Word} {width lsb : Nat} :
    getField w width lsb = 0#width ↔ ∀ i, lsb ≤ i ∧ i < lsb + width → w.getLsbD i = false := by
  refine ⟨fun zero i inField => getLsbD_eq_false_of_getField_eq_zero zero inField, fun bits => ?_⟩
  apply BitVec.eq_of_getLsbD_eq
  intro i hi
  rw [getLsbD_getField, bits (lsb + i) (by omega), Bool.and_false, BitVec.getLsbD_zero]

/-- R8: a field is zero exactly when its upper and its lower part are. -/
theorem getField_eq_zero_iff_parts {w : Word} {lsb : Nat} (upper lower : Nat) :
    getField w (upper + lower) lsb = 0#(upper + lower) ↔
      getField w upper (lsb + lower) = 0#upper ∧ getField w lower lsb = 0#lower := by
  simp only [getField_eq_zero_iff]
  refine ⟨fun all => ⟨fun i _ => all i (by omega), fun i _ => all i (by omega)⟩, fun ⟨high, low⟩ i _ => ?_⟩
  by_cases isLow : i < lsb + lower
  · exact low i (by omega)
  · exact high i (by omega)

/-- R64: the five bit ranges of a three-register word decide it. -/
theorem eq_of_r3_fields {w w' : Word} (op : getField w 4 28 = getField w' 4 28)
    (ignored : getField w 19 9 = getField w' 19 9) (a : getField w 3 6 = getField w' 3 6)
    (b : getField w 3 3 = getField w' 3 3) (c : getField w 3 0 = getField w' 3 0) : w = w' := by
  apply BitVec.eq_of_getLsbD_eq
  intro i hi
  have range : i < 3 ∨ (3 ≤ i ∧ i < 6) ∨ (6 ≤ i ∧ i < 9) ∨ (9 ≤ i ∧ i < 28) ∨ 28 ≤ i := by omega
  rcases range with h | h | h | h | h
  · exact getLsbD_eq_of_getField_eq c (by omega)
  · exact getLsbD_eq_of_getField_eq b (by omega)
  · exact getLsbD_eq_of_getField_eq a (by omega)
  · exact getLsbD_eq_of_getField_eq ignored (by omega)
  · exact getLsbD_eq_of_getField_eq op (by omega)

/-- R65: the three bit ranges of an immediate-load word decide it. -/
theorem eq_of_imm_fields {w w' : Word} (op : getField w 4 28 = getField w' 4 28)
    (ia : getField w 3 25 = getField w' 3 25) (imm : getField w 25 0 = getField w' 25 0) : w = w' := by
  apply BitVec.eq_of_getLsbD_eq
  intro i hi
  have range : i < 25 ∨ (25 ≤ i ∧ i < 28) ∨ 28 ≤ i := by omega
  rcases range with h | h | h
  · exact getLsbD_eq_of_getField_eq imm (by omega)
  · exact getLsbD_eq_of_getField_eq ia (by omega)
  · exact getLsbD_eq_of_getField_eq op (by omega)

/-! ## Which words are canonical -/

/-- R74: bits 27 to 9 of the canonical three-register word. -/
theorem ignored_encR3 (op : BitVec 4) (a b c : Reg) : getField (encR3 op a b c) 19 9 = 0#19 := by
  unfold encR3
  rw [getField_setField_other _ _ (by omega) (by omega), getField_setField_other _ _ (by omega) (by omega),
    getField_setField_other _ _ (by omega) (by omega), getField_setField_other _ _ (by omega) (by omega)]
  exact getField_zero 19 9

/-- R74: the words the three-register form writes. -/
theorem encR3_eq_iff {op : BitVec 4} {a b c : Reg} {w : Word} :
    encR3 op a b c = w ↔ w.extractLsb 31 28 = op ∧ w.extractLsb 27 9 = 0#19 ∧ w.extractLsb 8 6 = a ∧
      w.extractLsb 5 3 = b ∧ w.extractLsb 2 0 = c := by
  constructor
  · rintro rfl
    exact ⟨fieldsOf_encR3_op op a b c, ignored_encR3 op a b c, fieldsOf_encR3_a op a b c, fieldsOf_encR3_b op a b c,
      fieldsOf_encR3_c op a b c⟩
  · rintro ⟨hop, hignored, ha, hb, hc⟩
    exact eq_of_r3_fields ((fieldsOf_encR3_op op a b c).trans hop.symm)
      ((ignored_encR3 op a b c).trans hignored.symm) ((fieldsOf_encR3_a op a b c).trans ha.symm)
      ((fieldsOf_encR3_b op a b c).trans hb.symm) ((fieldsOf_encR3_c op a b c).trans hc.symm)

/-- R75: every immediate-load word is canonical. -/
theorem encImm_eq_of_opcode {w : Word} (op : w.extractLsb 31 28 = 13#4) :
    encImm (w.extractLsb 27 25) (w.extractLsb 24 0) = w :=
  eq_of_imm_fields ((fieldsOf_encImm_op _ _).trans op.symm) (fieldsOf_encImm_ia _ _) (fieldsOf_encImm_imm _ _)

/-- Bits 8 to 3 are fields A and B. -/
theorem bits8to3_eq_zero_iff {w : Word} :
    w.extractLsb 8 3 = 0#6 ↔ w.extractLsb 8 6 = 0#3 ∧ w.extractLsb 5 3 = 0#3 :=
  getField_eq_zero_iff_parts (lsb := 3) 3 3

/-- Bits 8 to 0 are fields A, B and C. -/
theorem bits8to0_eq_zero_iff {w : Word} :
    w.extractLsb 8 0 = 0#9 ↔ w.extractLsb 8 3 = 0#6 ∧ w.extractLsb 2 0 = 0#3 :=
  getField_eq_zero_iff_parts (lsb := 0) 6 3

/-- Settles O6: opcode by opcode, the decoded instruction's operands are the word's own fields, so the canonical word is
`w` exactly when the bits the encoder writes as 0 are 0 in `w` (`encR3_eq_iff`). -/
theorem reencodeExactlyCanonical : Obligations.ReencodeExactlyCanonical := by
  unfold Obligations.ReencodeExactlyCanonical
  intro w hop
  interval_cases h : (w.extractLsb 31 28).toNat <;> have op := opcode_eq_of_toNat h
  · simp [decode_cmov op, encode, Instr.opcode, encR3_eq_iff, op]
  · simp [decode_sload op, encode, Instr.opcode, encR3_eq_iff, op]
  · simp [decode_sstore op, encode, Instr.opcode, encR3_eq_iff, op]
  · simp [decode_add op, encode, Instr.opcode, encR3_eq_iff, op]
  · simp [decode_mul op, encode, Instr.opcode, encR3_eq_iff, op]
  · simp [decode_div op, encode, Instr.opcode, encR3_eq_iff, op]
  · simp [decode_nand op, encode, Instr.opcode, encR3_eq_iff, op]
  · simp [decode_halt op, encode, Instr.opcode, encR3_eq_iff, op, bits8to0_eq_zero_iff, bits8to3_eq_zero_iff,
      and_assoc]
  · simp [decode_map op, encode, Instr.opcode, encR3_eq_iff, op]
  · simp [decode_unmap op, encode, Instr.opcode, encR3_eq_iff, op, bits8to3_eq_zero_iff]
  · simp [decode_output op, encode, Instr.opcode, encR3_eq_iff, op, bits8to3_eq_zero_iff]
  · simp [decode_input op, encode, Instr.opcode, encR3_eq_iff, op, bits8to3_eq_zero_iff]
  · simp [decode_loadprog op, encode, Instr.opcode, encR3_eq_iff, op]
  · simp [decode_lv op, encode, encImm_eq_of_opcode op]

end Sys2Proof
end

section
/-! PROOF. The number a canonical three-register word stands for, and the assembler's refusals (spec/30_encoding.md
sections 4 and 5). -/

namespace Sys2Proof

/-- R74: the three-register word with the zero word it starts from written as `getField_zero` reads it. -/
theorem encR3_eq_setField (op : BitVec 4) (a b c : Reg) : encR3 op a b c =
    setField (setField (setField (setField 0#32 4 28 (zext32 op)) 3 6 (zext32 a)) 3 3 (zext32 b)) 3 0 (zext32 c) := rfl

/-- R74: the value of the canonical three-register word; each of its four fields is zero when it is set. -/
theorem toNat_encR3 (op : BitVec 4) (a b c : Reg) :
    (encR3 op a b c).toNat = op.toNat * 2 ^ 28 + a.toNat * 2 ^ 6 + b.toNat * 2 ^ 3 + c.toNat := by
  rw [encR3_eq_setField, toNat_setField_of_getField_eq_zero c (by omega) ?cZero,
    toNat_setField_of_getField_eq_zero b (by omega) ?bZero, toNat_setField_of_getField_eq_zero a (by omega) ?aZero,
    toNat_setField_of_getField_eq_zero op (by omega) (getField_zero 4 28)]
  case aZero => rw [getField_setField_other _ _ (by omega) (by omega), getField_zero]
  case bZero =>
    rw [getField_setField_other _ _ (by omega) (by omega), getField_setField_other _ _ (by omega) (by omega),
      getField_zero]
  case cZero =>
    rw [getField_setField_other _ _ (by omega) (by omega), getField_setField_other _ _ (by omega) (by omega),
      getField_setField_other _ _ (by omega) (by omega), getField_zero]
  simp

/-- Settles O9: the sum of the four fields at their places (`toNat_encR3`). -/
theorem threeRegisterWordValue : Obligations.ThreeRegisterWordValue := by
  unfold Obligations.ThreeRegisterWordValue
  exact toNat_encR3

/-- R76: what the assembler answers, by the range check on the numbers as written. -/
theorem assemble_r3_eq (op a b c : Nat) : assemble (.r3 op a b c) =
    if op ≤ 12 ∧ a ≤ 7 ∧ b ≤ 7 ∧ c ≤ 7 then
      some (encR3 (BitVec.ofNat 4 op) (BitVec.ofNat 3 a) (BitVec.ofNat 3 b) (BitVec.ofNat 3 c))
    else none := by
  simp [assemble, AsmStmt.wellFormed, and_assoc]

theorem assemble_lv_eq (a imm : Nat) : assemble (.lv a imm) =
    if a ≤ 7 ∧ imm ≤ 2 ^ 25 - 1 then some (encImm (BitVec.ofNat 3 a) (BitVec.ofNat 25 imm)) else none := by
  simp [assemble, AsmStmt.wellFormed]

theorem assemble_word_eq (v : Nat) : assemble (.word v) = if v < 2 ^ 32 then some (BitVec.ofNat 32 v) else none := by
  simp [assemble, AsmStmt.wellFormed]

/-- Settles O10: the range check is the negation of the refusal's condition, and numbers in range are the values of the
fields they become (`toNat_encR3`, `toNat_encImm`). -/
theorem assemblerNeverTruncates : Obligations.AssemblerNeverTruncates := by
  unfold Obligations.AssemblerNeverTruncates
  refine ⟨fun op a b c => ?r3, fun a v => ?lv, fun v => ?word⟩
  case r3 =>
    rw [assemble_r3_eq]
    split
    next inRange =>
      refine ⟨iff_of_false nofun (by omega), ?_⟩
      rintro _ ⟨⟩
      rw [toNat_encR3]
      simp only [BitVec.toNat_ofNat]
      omega
    next outOfRange => exact ⟨iff_of_true rfl (by omega), nofun⟩
  case lv =>
    rw [assemble_lv_eq]
    split
    next inRange =>
      refine ⟨iff_of_false nofun (by omega), ?_⟩
      rintro _ ⟨⟩
      rw [toNat_encImm]
      simp only [BitVec.toNat_ofNat]
      omega
    next outOfRange => exact ⟨iff_of_true rfl (by omega), nofun⟩
  case word =>
    rw [assemble_word_eq]
    split
    next inRange =>
      refine ⟨iff_of_false nofun (by omega), ?_⟩
      rintro _ ⟨⟩
      exact Nat.mod_eq_of_lt inRange
    next outOfRange => exact ⟨iff_of_true rfl (by omega), nofun⟩

end Sys2Proof
end

section
/-! PROOF. The rules of the segment-store controller (spec/20_memory.md section 3): what each access answers, and what a
store reads as after each request. A read looks at nothing but the segment its ID finds, so every frame is a statement
about `Memory.segment?`. -/

namespace Sys2Proof.Machine

namespace Memory

variable {m m' : Memory}

/-! ## An access looks only at the segment found -/

/-- R46. -/
theorem read_congr {id id' : Word} (same : m'.segment? id' = m.segment? id) (off : Word) :
    m'.read id' off = m.read id off := by
  unfold Memory.read; rw [same]

/-- R44. -/
theorem segLen_congr {id id' : Word} (same : m'.segment? id' = m.segment? id) : m'.segLen id' = m.segLen id := by
  unfold Memory.segLen; rw [same]

/-- R46: a read of a mapped segment. -/
theorem read_of_segment? {id : Word} {g : Segment} (found : m.segment? id = some g) (off : Word) :
    m.read id off = if off < g.len then .ok (g.get off) else .error .badOff := by
  rcases m.read_cases id off with ⟨none, -⟩ | ⟨g', found', len, answer⟩ | ⟨g', found', len, answer⟩
  · rw [none] at found; cases found
  · obtain rfl : g' = g := Option.some.inj (found'.symm.trans found)
    rw [answer, if_neg (BitVec.not_lt.mpr len)]
  · obtain rfl : g' = g := Option.some.inj (found'.symm.trans found)
    rw [answer, if_pos len]

/-- R44: the length of a mapped segment. -/
theorem segLen_of_segment? {id : Word} {g : Segment} (found : m.segment? id = some g) : m.segLen id = g.len := by
  unfold Memory.segLen; rw [found]

/-- R46: BAD_ID. -/
theorem read_eq_badId_iff {id off : Word} : m.read id off = .error .badId ↔ m.segment? id = none := by
  rcases m.read_cases id off with ⟨found, answer⟩ | ⟨g, found, -, answer⟩ | ⟨g, found, -, answer⟩ <;>
    simp [found, answer]

/-- R46: BAD_OFF. -/
theorem read_eq_badOff_iff {id off : Word} :
    m.read id off = .error .badOff ↔ ∃ g, m.segment? id = some g ∧ g.len ≤ off := by
  rcases m.read_cases id off with ⟨found, answer⟩ | ⟨g, found, len, answer⟩ | ⟨g, found, len, answer⟩
  · simp [found, answer]
  · simp [found, answer, len]
  · simp [found, answer, BitVec.not_le.mpr len]

/-- R47: BAD_ID, as for a read. -/
theorem write_eq_badId_iff {id off v : Word} : m.write id off v = .error .badId ↔ m.segment? id = none := by
  rcases m.write_cases id off v with ⟨found, answer⟩ | ⟨g, found, -, answer⟩ | ⟨g, found, -, answer⟩ <;>
    simp [found, answer]

/-- R47: BAD_OFF, as for a read. -/
theorem write_eq_badOff_iff {id off v : Word} :
    m.write id off v = .error .badOff ↔ ∃ g, m.segment? id = some g ∧ g.len ≤ off := by
  rcases m.write_cases id off v with ⟨found, answer⟩ | ⟨g, found, len, answer⟩ | ⟨g, found, len, answer⟩
  · simp [found, answer]
  · simp [found, answer, len]
  · simp [found, answer, BitVec.not_le.mpr len]

/-! ## Each request that succeeds, as an equation for the new store -/

/-- R47. -/
theorem write_eq_ok_iff {id off v : Word} : m.write id off v = .ok m' ↔
    ∃ g, m.segment? id = some g ∧ off < g.len ∧ m' = m.setSlot id (.mapped (g.set off v)) := by
  rcases m.write_cases id off v with ⟨found, answer⟩ | ⟨g, found, len, answer⟩ | ⟨g, found, len, answer⟩
  · simp [found, answer]
  · simp [found, answer, BitVec.not_lt.mpr len]
  · simp only [answer, found, Except.ok.injEq, Option.some.injEq, exists_eq_left', len, true_and]
    exact eq_comm

/-- R47: a write inside a mapped segment. -/
theorem write_of_segment? {id off : Word} {g : Segment} (found : m.segment? id = some g) (below : off < g.len)
    (v : Word) : m.write id off v = .ok (m.setSlot id (.mapped (g.set off v))) :=
  write_eq_ok_iff.mpr ⟨g, found, below, rfl⟩

/-- R50. -/
theorem release_eq_ok_iff {id : Word} : m.release id = .ok m' ↔
    id ≠ 0#32 ∧ m.valid id = true ∧ m' = { slots := m.slots.set id.toNat .unmapped, free := id :: m.free } := by
  rcases m.release_cases id with ⟨zero, answer⟩ | ⟨nonzero, invalid, answer⟩ | ⟨nonzero, valid, answer⟩
  · subst zero; simp [answer]
  · simp [invalid, answer]
  · simp only [answer, Except.ok.injEq, ne_eq, nonzero, not_false_eq_true, valid, true_and]
    exact eq_comm

/-- R51, for an ID other than 0. -/
theorem dup0_eq_ok_iff {cfg : Config} {id : Word} (nonzero : id ≠ 0#32) : m.dup0 cfg id = .ok m' ↔
    ∃ g, m.segment? id = some g ∧ fitsLimit cfg (m.totalWords - (m.segLen 0#32).toNat + g.len.toNat) = true ∧
      m' = m.setSlot 0#32 (.mapped g) := by
  rcases m.dup0_cases cfg id with ⟨zero, -⟩ | ⟨-, found, answer⟩ | ⟨g, -, found, ⟨fits, answer⟩ | ⟨fits, answer⟩⟩
  · exact absurd zero nonzero
  · simp [found, answer]
  · simp [found, fits, answer]
  · simp only [answer, found, Except.ok.injEq, Option.some.injEq, exists_eq_left', fits, true_and]
    exact eq_comm

/-- R48: the top of the free list is taken first. -/
theorem alloc_of_free_cons {cfg : Config} {len id : Word} {rest : List Word} (free : m.free = id :: rest)
    (fits : fitsLimit cfg (m.totalWords + len.toNat) = true) : m.alloc cfg len =
      some (id, { slots := m.slots.set id.toNat (.mapped (Segment.zeroed len)), free := rest }) := by
  simp [Memory.alloc, fits, free]

/-- R48: with the free list empty, a new slot is appended. -/
theorem alloc_of_free_nil {cfg : Config} {len : Word} (free : m.free = [])
    (fits : fitsLimit cfg (m.totalWords + len.toNat) = true) (room : m.slots.length < cfg.maxSlots) : m.alloc cfg len =
      some (BitVec.ofNat 32 m.slots.length, { slots := m.slots ++ [.mapped (Segment.zeroed len)], free := [] }) := by
  simp [Memory.alloc, fits, free, Nat.not_le.mpr room]

/-! ## The segments found afterwards -/

/-- R47, R51: one slot's segment replaced. -/
theorem segment?_setSlot_mapped {k : Word} (inRange : k.toNat < m.slots.length) (g : Segment) (id : Word) :
    (m.setSlot k (.mapped g)).segment? id = if id = k then some g else m.segment? id :=
  segment?_set inRange

/-- R47. -/
theorem segment?_write {id off v : Word} {g : Segment} (written : m.write id off v = .ok m')
    (found : m.segment? id = some g) (id' : Word) :
    m'.segment? id' = if id' = id then some (g.set off v) else m.segment? id' := by
  obtain ⟨g', found', -, rfl⟩ := write_eq_ok_iff.mp written
  obtain rfl : g' = g := Option.some.inj (found'.symm.trans found)
  exact segment?_setSlot_mapped (lt_of_segment? found) _ id'

/-- R50. -/
theorem segment?_release {id : Word} (freed : m.release id = .ok m') (id' : Word) :
    m'.segment? id' = if id' = id then none else m.segment? id' := by
  obtain ⟨-, valid, rfl⟩ := release_eq_ok_iff.mp freed
  obtain ⟨g, mapped⟩ := valid_iff.mp valid
  exact segment?_set (lt_of_segment? (segment?_eq_some.mpr mapped))

/-- The slots after one is appended, index by index. -/
theorem getElem?_append_slot (slots : List Slot) (sl : Slot) (i : Nat) :
    (slots ++ [sl])[i]? = if i = slots.length then some sl else slots[i]? := by
  rcases Nat.lt_trichotomy i slots.length with below | rfl | past
  · rw [List.getElem?_append_left below, if_neg (Nat.ne_of_lt below)]
  · rw [List.getElem?_concat_length, if_pos rfl]
  · rw [if_neg (Nat.ne_of_gt past), List.getElem?_eq_none (Nat.le_of_lt past),
      List.getElem?_eq_none (by simpa using past)]

/-- R48: a slot appended. The bound keeps the new ID from wrapping (log 21). -/
theorem segment?_append {free : List Word} (bound : m.slots.length < 2 ^ 32) (g : Segment) (id : Word) :
    Memory.segment? { slots := m.slots ++ [.mapped g], free := free } id =
      if id = BitVec.ofNat 32 m.slots.length then some g else m.segment? id := by
  have isNew : id = BitVec.ofNat 32 m.slots.length ↔ id.toNat = m.slots.length := by
    rw [← BitVec.toNat_inj, BitVec.toNat_ofNat, Nat.mod_eq_of_lt bound]
  by_cases new : id.toNat = m.slots.length
  · simp only [Memory.segment?, getElem?_append_slot, isNew, new, if_true]
  · simp only [Memory.segment?, getElem?_append_slot, isNew, new, if_false]

/-- R48: the segment of an allocated ID is zero-filled, every other one as before. -/
theorem segment?_alloc {cfg : Config} {len id : Word} (allocated : m.alloc cfg len = some (id, m'))
    (freeInRange : ∀ k ∈ m.free, k.toNat < m.slots.length) (slotLimit : cfg.maxSlots ≤ 2 ^ 32) (id' : Word) :
    m'.segment? id' = if id' = id then some (Segment.zeroed len) else m.segment? id' := by
  obtain ⟨-, ⟨rest, free, rfl⟩ | ⟨-, room, rfl, rfl⟩⟩ := alloc_cases allocated
  · exact segment?_set (freeInRange id (by simp [free]))
  · exact segment?_append (by omega) _ id'

/-- R47: a write to one ID leaves the reads of every other ID alone. -/
theorem read_write_other {id off v id' : Word} (written : m.write id off v = .ok m') (other : id' ≠ id) (o : Word) :
    m'.read id' o = m.read id' o := by
  obtain ⟨g, found, -⟩ := write_eq_ok_iff.mp written
  exact read_congr (by rw [segment?_write written found, if_neg other]) o

/-- R47: a write changes no length. -/
theorem segLen_write {id off v : Word} (written : m.write id off v = .ok m') (id' : Word) :
    m'.segLen id' = m.segLen id' := by
  obtain ⟨g, found, -⟩ := write_eq_ok_iff.mp written
  by_cases same : id' = id
  · rw [same, segLen_of_segment? found, segLen_of_segment? (g := g.set off v), Segment.set_len]
    rw [segment?_write written found, if_pos rfl]
  · exact segLen_congr (by rw [segment?_write written found, if_neg same])

/-- R47: read after write in a canonical store. -/
theorem read_write {id off v : Word} (canonical : m.wf) (written : m.write id off v = .ok m') (id' off' : Word) :
    m'.read id' off' = if id' = id ∧ off' = off then .ok v else m.read id' off' := by
  obtain ⟨g, found, inRange, -⟩ := write_eq_ok_iff.mp written
  by_cases same : id' = id
  · subst same
    have found' : m'.segment? id' = some (g.set off v) := by rw [segment?_write written found, if_pos rfl]
    rw [read_of_segment? found', read_of_segment? found, Segment.set_len,
      Segment.get_set _ _ _ (segment?_wf canonical found)]
    by_cases at_off : off' = off
    · simp [at_off, inRange]
    · simp [at_off]
  · rw [read_write_other written same, if_neg (by simp [same])]

end Memory

/-! ## The statements -/

/-- Settles O33: a read and a write fail by the segment found (`Memory.read_eq_badId_iff` and the three like it). -/
theorem accessFailsExactly : Obligations.AccessFailsExactly := by
  unfold Obligations.AccessFailsExactly
  intro m id off v
  refine ⟨⟨?badId, ?badOff⟩, ?writeBadId, ?writeBadOff⟩
  case badId => rw [Memory.read_eq_badId_iff, Memory.segment?_eq_none]
  case badOff => simp only [Memory.read_eq_badOff_iff, Memory.segment?_eq_some, BitVec.le_def]
  case writeBadId => rw [Memory.write_eq_badId_iff, Memory.read_eq_badId_iff]
  case writeBadOff => rw [Memory.write_eq_badOff_iff, Memory.read_eq_badOff_iff]

/-- Settles O34: the reads by `Memory.read_write`; a written slot stays mapped with its length. -/
theorem readAfterWrite : Obligations.ReadAfterWrite := by
  unfold Obligations.ReadAfterWrite
  intro m m' id off v canonical written
  have read := Memory.read_write canonical written
  refine ⟨by simp [read], fun id' off' other => by rw [read, if_neg other], Memory.segLen_write written,
    fun id' => ?valid, ?free, ?length⟩
  case valid =>
    obtain ⟨g, found, -⟩ := Memory.write_eq_ok_iff.mp written
    rw [Memory.valid, Memory.valid, Memory.segment?_write written found]
    split
    next same => simp [same, found]
    next => rfl
  case free =>
    obtain ⟨g, -, -, rfl⟩ := Memory.write_eq_ok_iff.mp written
    rfl
  case length =>
    obtain ⟨g, -, -, rfl⟩ := Memory.write_eq_ok_iff.mp written
    exact List.length_set

/-- Settles O36: Free puts the ID on top of the list, from which Alloc takes it back into the slot it came from. -/
theorem freedIdReusedFirst : Obligations.FreedIdReusedFirst := by
  unfold Obligations.FreedIdReusedFirst
  intro m m1 cfg id len freed fits
  obtain ⟨-, valid, rfl⟩ := Memory.release_eq_ok_iff.mp freed
  obtain ⟨g, mapped⟩ := Memory.valid_iff.mp valid
  have inRange : id.toNat < m.slots.length := Memory.lt_of_segment? (Memory.segment?_eq_some.mpr mapped)
  refine ⟨_, Memory.alloc_of_free_cons rfl fits, rfl, by simp, fun off below => ?zeros⟩
  case zeros =>
    rw [Memory.read_of_segment? (g := Segment.zeroed len), Segment.zeroed_len, if_pos below, Segment.zeroed_get]
    rw [Memory.segment?_set (by simpa using inRange), if_pos rfl]

/-- Settles O37: after a Free the ID finds no segment, and every other ID the one it found before
(`Memory.segment?_release`). -/
theorem freedIdInvalidAtOnce : Obligations.FreedIdInvalidAtOnce := by
  unfold Obligations.FreedIdInvalidAtOnce
  intro m m1 id freed
  have gone : m1.segment? id = none := by rw [Memory.segment?_release freed, if_pos rfl]
  refine ⟨fun off v => ⟨Memory.read_eq_badId_iff.mpr gone, Memory.write_eq_badId_iff.mpr gone⟩, fun id' off other => ?_⟩
  exact Memory.read_congr (by rw [Memory.segment?_release freed, if_neg other]) off

/-- Settles O39: segment 0 finds the copied data (`Memory.segment?_setSlot_mapped`), and a write to one ID leaves the
other alone (`Memory.read_write_other`). -/
theorem programCopyIsIndependent : Obligations.ProgramCopyIsIndependent := by
  unfold Obligations.ProgramCopyIsIndependent
  intro m m1 cfg id nonzero copied
  obtain ⟨g, found, -, rfl⟩ := (Memory.dup0_eq_ok_iff nonzero).mp copied
  have inRange : (0#32).toNat < m.slots.length := Nat.zero_lt_of_lt (Memory.lt_of_segment? found)
  have segment := Memory.segment?_setSlot_mapped inRange g
  have copy : (m.setSlot 0#32 (.mapped g)).segment? 0#32 = m.segment? id := by rw [segment, if_pos rfl, found]
  refine ⟨Memory.read_congr copy, Memory.segLen_congr copy, fun id' off other => ?frame,
    fun m2 off v written => Memory.read_write_other written nonzero.symm,
    fun m2 off v written => Memory.read_write_other written nonzero⟩
  case frame => exact Memory.read_congr (by rw [segment, if_neg other]) off

end Sys2Proof.Machine
end

section
/-! PROOF. The canonical form of a segment (log 7): canonical lists that hold the same words are the same list. -/

namespace Sys2Proof.Machine

/-- An offset that is no entry's holds no listed word. -/
theorem cellsGet_of_forall_ne {cells : List (Nat × Word)} {off : Nat} (absent : ∀ p ∈ cells, off ≠ p.1) :
    cellsGet cells off = unlistedWord := by
  induction cells with
  | nil => rfl
  | cons p rest ih =>
    have notHead : off ≠ p.1 := absent p List.mem_cons_self
    rw [cellsGet, if_neg notHead]
    exact ih fun q hq => absent q (List.mem_cons_of_mem p hq)

/-- The word at the first entry's offset. -/
theorem cellsGet_cons_self (p : Nat × Word) (rest : List (Nat × Word)) : cellsGet (p :: rest) p.1 = p.2 := by
  rw [cellsGet, if_pos rfl]

theorem cellsGet_cons_of_ne {p : Nat × Word} {off : Nat} (rest : List (Nat × Word)) (other : off ≠ p.1) :
    cellsGet (p :: rest) off = cellsGet rest off := by
  rw [cellsGet, if_neg other]

/-- A list with rising offsets holds no listed word below its first. -/
theorem cellsGet_below_head {p : Nat × Word} {rest : List (Nat × Word)} {off : Nat}
    (rising : (p :: rest).Pairwise fun q r => q.1 < r.1) (below : off < p.1) :
    cellsGet (p :: rest) off = unlistedWord := by
  refine cellsGet_of_forall_lt fun q hq => ?_
  rcases List.mem_cons.mp hq with rfl | hq
  · exact below
  · exact Nat.lt_trans below ((List.pairwise_cons.mp rising).1 q hq)

/-- The first offset of a canonical list is at or above that of another which holds the same words, for there the other
list's first word, which is listed, is read. -/
theorem head_le_of_cellsGet_eq {p q : Nat × Word} {ps qs : List (Nat × Word)}
    (rising : (q :: qs).Pairwise fun r r' => r.1 < r'.1) (listed : p.2 ≠ unlistedWord)
    (same : ∀ off, cellsGet (p :: ps) off = cellsGet (q :: qs) off) : q.1 ≤ p.1 := by
  refine Nat.le_of_not_lt fun below => listed ?_
  rw [← cellsGet_cons_self p ps, same, cellsGet_below_head rising below]

/-- Canonical lists that hold the same words are equal. -/
theorem cells_ext {ps qs : List (Nat × Word)} (risingP : ps.Pairwise fun r r' => r.1 < r'.1)
    (risingQ : qs.Pairwise fun r r' => r.1 < r'.1) (listedP : ∀ p ∈ ps, p.2 ≠ unlistedWord)
    (listedQ : ∀ q ∈ qs, q.2 ≠ unlistedWord) (same : ∀ off, cellsGet ps off = cellsGet qs off) : ps = qs := by
  induction ps generalizing qs with
  | nil =>
    cases qs with
    | nil => rfl
    | cons q qs =>
      refine absurd ?_ (listedQ q List.mem_cons_self)
      rw [← cellsGet_cons_self q qs, ← same]; rfl
  | cons p ps ih =>
    have pListed := listedP p List.mem_cons_self
    cases qs with
    | nil =>
      refine absurd ?_ pListed
      rw [← cellsGet_cons_self p ps, same]; rfl
    | cons q qs =>
      have qListed := listedQ q List.mem_cons_self
      have offsets : p.1 = q.1 := Nat.le_antisymm (head_le_of_cellsGet_eq risingP qListed fun off => (same off).symm)
        (head_le_of_cellsGet_eq risingQ pListed same)
      have words : p.2 = q.2 := by
        rw [← cellsGet_cons_self p ps, same, offsets, cellsGet_cons_self]
      obtain ⟨pBelow, risingPs⟩ := List.pairwise_cons.mp risingP
      obtain ⟨qBelow, risingQs⟩ := List.pairwise_cons.mp risingQ
      have tails : ps = qs := by
        refine ih risingPs risingQs (fun r hr => listedP r (List.mem_cons_of_mem p hr))
          (fun r hr => listedQ r (List.mem_cons_of_mem q hr)) fun off => ?_
        by_cases atHead : off = p.1
        · rw [cellsGet_of_forall_ne fun r hr => Nat.ne_of_lt (atHead ▸ pBelow r hr),
            cellsGet_of_forall_ne fun r hr => Nat.ne_of_lt (atHead ▸ offsets ▸ qBelow r hr)]
        · rw [← cellsGet_cons_of_ne ps atHead, same, cellsGet_cons_of_ne qs (offsets ▸ atHead)]
      rw [Prod.ext offsets words, tails]

/-- A canonical segment holds no listed word at or beyond its length. -/
theorem Segment.cellsGet_of_len_le {g : Segment} (canonical : g.wf) {off : Nat} (past : g.len.toNat ≤ off) :
    cellsGet g.cells off = unlistedWord :=
  cellsGet_of_forall_ne fun p hp => by have := (canonical.2 p hp).1; omega

/-- Settles O35: below the length the segments read alike, and beyond it neither lists a word, so the canonical lists hold
the same words everywhere (`cells_ext`). -/
theorem canonicalSegmentsEqual : Obligations.CanonicalSegmentsEqual := by
  unfold Obligations.CanonicalSegmentsEqual
  intro g g' canonical canonical' lens reads
  have same : ∀ off, cellsGet g.cells off = cellsGet g'.cells off := fun off => by
    by_cases inside : off < g.len.toNat
    · have toNat : (BitVec.ofNat 32 off).toNat = off := Nat.mod_eq_of_lt (Nat.lt_trans inside g.len.isLt)
      have read := reads (BitVec.ofNat 32 off) (by rw [BitVec.lt_def, toNat]; exact inside)
      rwa [Segment.get, Segment.get, toNat] at read
    · have past := Nat.le_of_not_lt inside
      rw [Segment.cellsGet_of_len_le canonical past, Segment.cellsGet_of_len_le canonical' (lens ▸ past)]
  have cells : g.cells = g'.cells :=
    cells_ext canonical.1 canonical'.1 (fun p hp => (canonical.2 p hp).2) (fun p hp => (canonical'.2 p hp).2) same
  change Segment.mk g.len g.cells = Segment.mk g'.len g'.cells
  rw [lens, cells]

end Sys2Proof.Machine
end

section
/-! PROOF. The store invariant of spec/10_state.md section 5: every request of the segment-store controller keeps it, so
every step does, and every launch meets it. -/

namespace Sys2Proof.Machine

/-! ## Totals (R48) -/

/-- The words of all slots after one slot is replaced. -/
theorem sum_words_set {slots : List Slot} {k : Nat} {old : Slot} (new : Slot) (h : slots[k]? = some old) :
    ((slots.set k new).map Slot.words).sum + old.words = (slots.map Slot.words).sum + new.words := by
  induction slots generalizing k with
  | nil => simp at h
  | cons sl slots ih =>
    cases k with
    | zero =>
      obtain rfl : sl = old := by simpa using h
      simp only [List.set_cons_zero, List.map_cons, List.sum_cons]
      omega
    | succ k =>
      have := ih (by simpa using h)
      simp only [List.set_cons_succ, List.map_cons, List.sum_cons]
      omega

theorem Memory.totalWords_set {m : Memory} {k : Nat} {old : Slot} (new : Slot) (free : List Word)
    (h : m.slots[k]? = some old) :
    Memory.totalWords { slots := m.slots.set k new, free := free } + old.words = m.totalWords + new.words :=
  sum_words_set new h

/-- A segment is no longer than the total: with its slot emptied the total falls by its length. -/
theorem Memory.len_le_totalWords {m : Memory} {id : Word} {g : Segment} (found : m.segment? id = some g) :
    g.len.toNat ≤ m.totalWords := by
  have := Memory.totalWords_set .unmapped m.free (Memory.segment?_eq_some.mp found)
  simp only [Slot.words] at this
  omega

/-- R48: a total is within the limit exactly when no limit is below it. -/
theorem fitsLimit_eq_true_iff {cfg : Config} {total : Nat} :
    fitsLimit cfg total = true ↔ ∀ limit, cfg.maxTotalWords = some limit → total ≤ limit := by
  unfold fitsLimit
  split <;> simp_all

/-- A smaller total stays within the limit. -/
theorem fitsLimit_of_le {cfg : Config} {small large : Nat} (h : small ≤ large) (fits : fitsLimit cfg large = true) :
    fitsLimit cfg small = true :=
  fitsLimit_eq_true_iff.mpr fun limit isLimit => Nat.le_trans h (fitsLimit_eq_true_iff.mp fits limit isLimit)

/-! ## The invariant of a store -/

/-- `Inv` without the range of the limits, read as a statement about every ID: the free list is the unmapped slots' IDs.
That 0 is not on it follows from slot 0 being mapped. -/
structure StoreInv (cfg : Config) (m : Memory) : Prop where
  canonical : m.wf
  slotZero : m.valid 0#32 = true
  nodup : m.free.Nodup
  mem_free : ∀ id : Word, id ∈ m.free ↔ m.slots[id.toNat]? = some .unmapped
  slotLimit : m.slots.length ≤ cfg.maxSlots
  wordLimit : fitsLimit cfg m.totalWords = true

/-- R27: below 2^32 slots, every unmapped slot has an ID of its own. -/
theorem Memory.freeListExact_iff_mem {m : Memory} (bound : m.slots.length ≤ 2 ^ 32) (zero : m.valid 0#32 = true) :
    m.freeListExact ↔ m.free.Nodup ∧ ∀ id : Word, id ∈ m.free ↔ m.slots[id.toNat]? = some .unmapped := by
  rw [Memory.freeListExact_iff]
  constructor
  · rintro ⟨nodup, unmapped, listed⟩
    refine ⟨nodup, fun id => ⟨fun h => (unmapped id h).2, fun h => ?_⟩⟩
    have := listed id.toNat (List.getElem?_eq_some_iff.mp h).1 h
    rwa [BitVec.ofNat_toNat, BitVec.setWidth_eq] at this
  · rintro ⟨nodup, mem_free⟩
    refine ⟨nodup, fun id h => ⟨?_, (mem_free id).mp h⟩, fun i hi h => (mem_free _).mpr ?_⟩
    · rintro rfl
      obtain ⟨g, mapped⟩ := Memory.valid_iff.mp zero
      rw [(mem_free _).mp h] at mapped
      cases mapped
    · rwa [BitVec.toNat_ofNat, Nat.mod_eq_of_lt (by omega)]

theorem inv_iff {s : State} : Inv s ↔ s.config.wf ∧ StoreInv s.config s.mem := by
  constructor
  · rintro ⟨limits, canonical, zero, free, slots, words⟩
    obtain ⟨nodup, mem_free⟩ := (Memory.freeListExact_iff_mem (Nat.le_trans slots limits.2) zero).mp free
    exact ⟨limits, canonical, zero, nodup, mem_free, slots, words⟩
  · rintro ⟨limits, canonical, zero, nodup, mem_free, slots, words⟩
    exact ⟨limits, canonical, zero,
      (Memory.freeListExact_iff_mem (Nat.le_trans slots limits.2) zero).mpr ⟨nodup, mem_free⟩, slots, words⟩

namespace StoreInv

variable {cfg : Config} {m m' : Memory}

/-- R25: there is a slot 0. -/
theorem slots_pos (h : StoreInv cfg m) : 0 < m.slots.length := by
  obtain ⟨g, mapped⟩ := Memory.valid_iff.mp h.slotZero
  exact (List.getElem?_eq_some_iff.mp mapped).1

/-- R27: an ID on the free list is below N. -/
theorem free_inRange (h : StoreInv cfg m) {id : Word} (free : id ∈ m.free) : id.toNat < m.slots.length :=
  (List.getElem?_eq_some_iff.mp ((h.mem_free id).mp free)).1

/-- R27: an ID on the free list finds no segment. -/
theorem segment?_free (h : StoreInv cfg m) {id : Word} (free : id ∈ m.free) : m.segment? id = none :=
  Memory.segment?_eq_none.mpr (.inr ((h.mem_free id).mp free))

/-- R27: 0 is never on the free list. -/
theorem ne_zero_of_free (h : StoreInv cfg m) {id : Word} (free : id ∈ m.free) : id ≠ 0#32 := by
  rintro rfl
  have valid := h.slotZero
  rw [Memory.valid, h.segment?_free free] at valid
  cases valid

/-- R47, R51: another segment in a mapped slot, where the total allows it. -/
theorem setSlot_mapped (h : StoreInv cfg m) {id : Word} {old new : Segment} (found : m.segment? id = some old)
    (canonical : new.wf) (fits : fitsLimit cfg (m.totalWords - old.len.toNat + new.len.toNat) = true) :
    StoreInv cfg (m.setSlot id (.mapped new)) where
  canonical := Memory.setSlots_wf _ _ h.canonical (Slot.wf_mapped.mpr canonical)
  slotZero := by
    rw [Memory.valid, Memory.segment?_setSlot_mapped (Memory.lt_of_segment? found)]
    split
    next => rfl
    next => exact h.slotZero
  nodup := h.nodup
  mem_free k := by
    have mapped := Memory.segment?_eq_some.mp found
    simp only [Memory.setSlot, List.getElem?_set, h.mem_free k]
    split
    next same => simp [← same, mapped]
    next => rfl
  slotLimit := by simpa [Memory.setSlot] using h.slotLimit
  wordLimit := by
    have total := Memory.totalWords_set (.mapped new) m.free (Memory.segment?_eq_some.mp found)
    have := Memory.len_le_totalWords found
    simp only [Slot.words] at total
    exact fitsLimit_of_le (by unfold Memory.setSlot; omega) fits

/-- WRITE keeps the invariant: the segment's length stays. -/
theorem write (h : StoreInv cfg m) {id off v : Word} (written : m.write id off v = .ok m') : StoreInv cfg m' := by
  obtain ⟨g, found, inRange, rfl⟩ := Memory.write_eq_ok_iff.mp written
  refine h.setSlot_mapped found (Segment.set_wf v (Memory.segment?_wf h.canonical found) inRange) ?_
  rw [Segment.set_len, Nat.sub_add_cancel (Memory.len_le_totalWords found)]
  exact h.wordLimit

/-- ALLOC keeps the invariant: the new segment is in a slot that held no words, and its ID leaves the free list. -/
theorem alloc (h : StoreInv cfg m) {len id : Word} (allocated : m.alloc cfg len = some (id, m')) : StoreInv cfg m' := by
  have canonical := Memory.alloc_wf h.canonical allocated
  obtain ⟨fits, ⟨rest, free, rfl⟩ | ⟨free, room, -, rfl⟩⟩ := Memory.alloc_cases allocated
  · have isFree : id ∈ m.free := by simp [free]
    have inRange := h.free_inRange isFree
    have unmapped := (h.mem_free id).mp isFree
    obtain ⟨notInRest, nodup⟩ := List.nodup_cons.mp (free ▸ h.nodup)
    refine ⟨canonical, ?slotZero, nodup, fun k => ?mem_free, by simpa using h.slotLimit, ?wordLimit⟩
    case slotZero =>
      rw [Memory.valid, Memory.segment?_set inRange, if_neg (h.ne_zero_of_free isFree).symm]
      exact h.slotZero
    case mem_free =>
      by_cases same : k = id
      · simp [same, notInRest, inRange]
      · have otherSlot : id.toNat ≠ k.toNat := fun e => same (BitVec.eq_of_toNat_eq e.symm)
        rw [List.getElem?_set_ne otherSlot, ← h.mem_free k, free, List.mem_cons, or_iff_right same]
    case wordLimit =>
      have total := Memory.totalWords_set (.mapped (Segment.zeroed len)) rest unmapped
      simp only [Slot.words, Segment.zeroed_len] at total
      rwa [← total] at fits
  · refine ⟨canonical, ?slotZero, List.nodup_nil, fun k => ?mem_free, ?slotLimit, ?wordLimit⟩
    case slotZero =>
      obtain ⟨g, mapped⟩ := Memory.valid_iff.mp h.slotZero
      exact Memory.valid_iff.mpr ⟨g, (List.getElem?_append_left h.slots_pos).trans mapped⟩
    case mem_free =>
      rw [Memory.getElem?_append_slot, ← free, h.mem_free k]
      split
      next new => simp [new]
      next => rfl
    case slotLimit => simpa using room
    case wordLimit => simpa [Memory.totalWords, Slot.words] using fits

/-- FREE keeps the invariant: the freed ID goes on the free list as its slot is unmapped, and the total falls. -/
theorem release (h : StoreInv cfg m) {id : Word} (freed : m.release id = .ok m') : StoreInv cfg m' := by
  have canonical := Memory.release_wf h.canonical freed
  have segment := Memory.segment?_release freed
  obtain ⟨nonzero, valid, rfl⟩ := Memory.release_eq_ok_iff.mp freed
  obtain ⟨g, mapped⟩ := Memory.valid_iff.mp valid
  have inRange := Memory.lt_of_segment? (Memory.segment?_eq_some.mpr mapped)
  refine ⟨canonical, ?slotZero, ?nodup, fun k => ?mem_free, by simpa using h.slotLimit, ?wordLimit⟩
  case slotZero =>
    rw [Memory.valid, segment, if_neg nonzero.symm]
    exact h.slotZero
  case nodup => exact List.nodup_cons.mpr ⟨by simp [h.mem_free, mapped], h.nodup⟩
  case mem_free =>
    by_cases same : k = id
    · simp [same, inRange]
    · have otherSlot : id.toNat ≠ k.toNat := fun e => same (BitVec.eq_of_toNat_eq e.symm)
      rw [List.getElem?_set_ne otherSlot, ← h.mem_free k, List.mem_cons, or_iff_right same]
  case wordLimit =>
    have total := Memory.totalWords_set .unmapped (id :: m.free) mapped
    simp only [Slot.words] at total
    exact fitsLimit_of_le (by omega) h.wordLimit

/-- DUP0 keeps the invariant: segment 0 is replaced where the total allows it. -/
theorem dup0 (h : StoreInv cfg m) {id : Word} (copied : m.dup0 cfg id = .ok m') : StoreInv cfg m' := by
  by_cases zero : id = 0#32
  · rw [Memory.dup0, if_pos zero] at copied
    cases copied
    exact h
  · obtain ⟨g, found, fits, rfl⟩ := (Memory.dup0_eq_ok_iff zero).mp copied
    obtain ⟨program, mapped⟩ := Memory.valid_iff.mp h.slotZero
    have found0 := Memory.segment?_eq_some.mpr mapped
    rw [Memory.segLen_of_segment? found0] at fits
    exact h.setSlot_mapped found0 (Memory.segment?_wf h.canonical found) fits

end StoreInv

/-- R36: whatever request an instruction makes, the store keeps its invariant. -/
theorem StoreStep.storeInv {i : Instr} {s t : State} (h : StoreStep i s t) (inv : StoreInv s.config s.mem) :
    StoreInv s.config t.mem := by
  rcases h with h | ⟨_, _, _, -, h⟩ | ⟨_, _, _, -, h⟩ | ⟨_, -, h⟩ | ⟨_, _, -, h⟩
  · rwa [h]
  · exact inv.write h
  · exact inv.alloc h
  · exact inv.release h
  · exact inv.dup0 h

/-- Settles O25: a step leaves the store as one request of the controller does (`step_storeStep`), and each request keeps
the invariant (`StoreStep.storeInv`). -/
theorem stepKeepsStoreInvariant : Obligations.StepKeepsStoreInvariant := by
  unfold Obligations.StepKeepsStoreInvariant
  intro s t inv hStep
  obtain ⟨limits, store⟩ := inv_iff.mp inv
  obtain ⟨⟨i, storeStep⟩, config⟩ := step_storeStep hStep
  exact inv_iff.mpr (config ▸ ⟨limits, storeStep.storeInv store⟩)

/-! ## Launches -/

/-- R129: the length of the loader's segment, which R133 keeps below 2^32. -/
theorem Segment.toNat_ofWords_len {ws : List Word} (short : ws.length < 2 ^ 32) :
    (Segment.ofWords ws).len.toNat = ws.length := Nat.mod_eq_of_lt short

/-- R129: one mapped slot that holds the loader's words meets the invariant where they fit the limits. -/
theorem launch_storeInv {cfg : Config} {ws : List Word} (input : InputPort) (slots : 1 ≤ cfg.maxSlots)
    (short : ws.length < 2 ^ 32) (fits : fitsLimit cfg ws.length = true) :
    StoreInv cfg (launch cfg ws input).mem where
  canonical := launch_mem_wf cfg input short
  slotZero := rfl
  nodup := List.nodup_nil
  mem_free id := by
    simp only [launch, List.not_mem_nil, List.getElem?_singleton, false_iff]
    split <;> simp
  slotLimit := slots
  wordLimit := by
    simpa [launch, Memory.totalWords, Slot.words, Segment.toNat_ofWords_len short] using fits

/-- Settles O27: a booted state is a launch within both bounds of R133 (`boot_eq_ok`, `launch_storeInv`). -/
theorem launchMeetsStoreInvariant : Obligations.LaunchMeetsStoreInvariant := by
  unfold Obligations.LaunchMeetsStoreInvariant
  intro cfg image input s limits booted
  obtain ⟨ws, -, short, fits, rfl⟩ := boot_eq_ok.mp booted
  exact inv_iff.mpr ⟨limits, launch_storeInv input limits.1 short fits⟩

/-- R135, logs 3 to 5: the model's reset state is the launch of the empty image with the default limits. -/
theorem boot_empty_eq_reset : boot Config.default [] { items := [], tail := .eof } = .ok State.reset := rfl

/-- Settles O26: the reset state is a launch with limits in range. -/
theorem resetMeetsStoreInvariant : Obligations.ResetMeetsStoreInvariant := by
  unfold Obligations.ResetMeetsStoreInvariant
  have limits : Config.default.wf := by decide
  exact launchMeetsStoreInvariant Config.default [] _ State.reset limits boot_empty_eq_reset

/-! ## What the invariant gives -/

/-- R48: the ID that Alloc returns names no live segment before. -/
theorem StoreInv.segment?_alloc_old {cfg : Config} {m m' : Memory} {len id : Word} (h : StoreInv cfg m)
    (limits : cfg.wf) (allocated : m.alloc cfg len = some (id, m')) : m.segment? id = none := by
  obtain ⟨-, ⟨rest, free, -⟩ | ⟨-, room, rfl, -⟩⟩ := Memory.alloc_cases allocated
  · exact h.segment?_free (by simp [free])
  · have noWrap : m.slots.length < 2 ^ 32 := Nat.lt_of_lt_of_le room limits.2
    have toNat : (BitVec.ofNat 32 m.slots.length).toNat = m.slots.length := Nat.mod_eq_of_lt noWrap
    exact Memory.segment?_eq_none.mpr (.inl (Nat.le_of_eq toNat.symm))

/-- R48: the segments found after an Alloc, in a store that meets the invariant. -/
theorem StoreInv.segment?_alloc {cfg : Config} {m m' : Memory} {len id : Word} (h : StoreInv cfg m)
    (limits : cfg.wf) (allocated : m.alloc cfg len = some (id, m')) (id' : Word) :
    m'.segment? id' = if id' = id then some (Segment.zeroed len) else m.segment? id' :=
  Memory.segment?_alloc allocated (fun _ free => h.free_inRange free) limits.2 id'

/-- Settles O38: the new ID found no segment before, while 0 does, and finds the zero-filled one afterwards
(`StoreInv.segment?_alloc_old`, `StoreInv.segment?_alloc`). -/
theorem allocReturnsFreshId : Obligations.AllocReturnsFreshId := by
  unfold Obligations.AllocReturnsFreshId
  intro s m len id inv allocated
  obtain ⟨limits, store⟩ := inv_iff.mp inv
  have unused := store.segment?_alloc_old limits allocated
  have segment := store.segment?_alloc limits allocated
  have fresh : m.segment? id = some (Segment.zeroed len) := by rw [segment, if_pos rfl]
  have invalid : s.mem.valid id = false := by rw [Memory.valid, unused]; rfl
  refine ⟨?nonzero, invalid, Memory.lt_of_segment? fresh, Memory.segLen_of_segment? fresh, fun off below => ?zeros,
    fun id' off other => ?frame⟩
  case nonzero =>
    rintro rfl
    rw [store.slotZero] at invalid
    cases invalid
  case zeros => rw [Memory.read_of_segment? fresh, Segment.zeroed_len, if_pos below, Segment.zeroed_get]
  case frame => exact Memory.read_congr (by rw [segment, if_neg other]) off

/-! ## The slot count -/

/-- R48, R50: only an Alloc that finds the free list empty appends a slot. -/
theorem StoreStep.slots_length {i : Instr} {s t : State} (h : StoreStep i s t) :
    t.mem.slots.length = s.mem.slots.length ∨
      (t.mem.slots.length = s.mem.slots.length + 1 ∧ s.mem.free = [] ∧ ∃ b c, i = .map b c) := by
  rcases h with h | ⟨_, _, _, -, h⟩ | ⟨b, c, _, rfl, h⟩ | ⟨_, -, h⟩ | ⟨b, _, -, h⟩
  · exact .inl (by rw [h])
  · obtain ⟨g, -, -, h⟩ := Memory.write_eq_ok_iff.mp h
    exact .inl (by rw [h]; exact List.length_set)
  · obtain ⟨-, ⟨rest, -, h⟩ | ⟨free, -, -, h⟩⟩ := Memory.alloc_cases h
    · exact .inl (by rw [h]; exact List.length_set)
    · exact .inr ⟨by rw [h]; exact List.length_append, free, b, c, rfl⟩
  · obtain ⟨-, -, h⟩ := Memory.release_eq_ok_iff.mp h
    exact .inl (by rw [h]; exact List.length_set)
  · by_cases zero : s.reg b = 0#32
    · rw [Memory.dup0, if_pos zero] at h
      exact .inl (by rw [← Except.ok.inj h])
    · obtain ⟨g, -, -, h⟩ := (Memory.dup0_eq_ok_iff zero).mp h
      exact .inl (by rw [h]; exact List.length_set)

/-- Settles O28: a failed fetch leaves the store, and an executed instruction is the one decoded at the pc
(`StoreStep.slots_length`). -/
theorem slotCountGrowsOnlyByMap : Obligations.SlotCountGrowsOnlyByMap := by
  unfold Obligations.SlotCountGrowsOnlyByMap
  intro s t hStep
  obtain ⟨-, ⟨-, rfl⟩ | ⟨w, fetched, executed⟩⟩ := step_cases hStep
  · exact .inl rfl
  · obtain same | ⟨grown, free, b, c, isMap⟩ := (exec_cases executed).1.slots_length
    · exact .inl same
    · exact .inr ⟨grown, free, w, b, c, Memory.fetch_eq_some.mp fetched, isMap⟩

end Sys2Proof.Machine
end

section
/-! PROOF. What each instruction with more than one outcome answers, one equation an outcome (spec/42_segment_access.md to
46_io.md), so that no proof below unfolds its meaning again. -/

namespace Sys2Proof.Machine

/-! ## Segment access -/

/-- R93. -/
theorem exec_sload_of_ok {a b c : Reg} {s : State} {v : Word} (word : s.mem.read (s.reg b) (s.reg c) = .ok v) :
    exec (.sload a b c) s = .next (s.setReg a v).advance := by
  simp only [exec, execSload, State.effAddr, word]

theorem exec_sload_of_badId {b c : Reg} {s : State} (a : Reg) (bad : s.mem.read (s.reg b) (s.reg c) = .error .badId) :
    exec (.sload a b c) s = .next (s.takeFault .loadBadSegment) := by
  simp only [exec, execSload, State.effAddr, bad]

theorem exec_sload_of_badOff {b c : Reg} {s : State} (a : Reg) (bad : s.mem.read (s.reg b) (s.reg c) = .error .badOff) :
    exec (.sload a b c) s = .next (s.takeFault .loadBadOffset) := by
  simp only [exec, execSload, State.effAddr, bad]

/-- R94. -/
theorem exec_sstore_of_ok {a b c : Reg} {s : State} {m : Memory}
    (written : s.mem.write (s.reg a) (s.reg b) (s.reg c) = .ok m) :
    exec (.sstore a b c) s = .next (s.setMem m).advance := by
  simp only [exec, execSstore, State.effAddr, written]

theorem exec_sstore_of_badId {a b c : Reg} {s : State}
    (bad : s.mem.write (s.reg a) (s.reg b) (s.reg c) = .error .badId) :
    exec (.sstore a b c) s = .next (s.takeFault .storeBadSegment) := by
  simp only [exec, execSstore, State.effAddr, bad]

theorem exec_sstore_of_badOff {a b c : Reg} {s : State}
    (bad : s.mem.write (s.reg a) (s.reg b) (s.reg c) = .error .badOff) :
    exec (.sstore a b c) s = .next (s.takeFault .storeBadOffset) := by
  simp only [exec, execSstore, State.effAddr, bad]

/-! ## Division -/

/-- R97. -/
theorem exec_div_of_ne_zero {c : Reg} {s : State} (a b : Reg) (divisor : s.reg c ≠ 0#32) :
    exec (.div a b c) s = .next (s.setReg a (s.reg b / s.reg c)).advance := by
  simp only [exec, execDiv, if_neg divisor]

theorem exec_div_of_zero {c : Reg} {s : State} (a b : Reg) (divisor : s.reg c = 0#32) :
    exec (.div a b c) s = .next (s.takeFault .divideByZero) := by
  simp only [exec, execDiv, if_pos divisor]

/-! ## Segment allocation -/

/-- R104. -/
theorem exec_map_of_some {c : Reg} {s : State} {id : Word} {m : Memory} (b : Reg)
    (allocated : s.mem.alloc s.config (s.reg c) = some (id, m)) :
    exec (.map b c) s = .next ((s.setMem m).setReg b id).advance := by
  simp only [exec, execMap, allocated]

theorem exec_map_of_none {c : Reg} {s : State} (b : Reg) (exhausted : s.mem.alloc s.config (s.reg c) = none) :
    exec (.map b c) s = .next (s.takeFault .allocExhausted) := by
  simp only [exec, execMap, exhausted]

/-- R105. -/
theorem exec_unmap_of_ok {c : Reg} {s : State} {m : Memory} (freed : s.mem.release (s.reg c) = .ok m) :
    exec (.unmap c) s = .next (s.setMem m).advance := by
  simp only [exec, execUnmap, freed]

theorem exec_unmap_of_zeroId {c : Reg} {s : State} (bad : s.mem.release (s.reg c) = .error .zeroId) :
    exec (.unmap c) s = .next (s.takeFault .unmapSegmentZero) := by
  simp only [exec, execUnmap, bad]

theorem exec_unmap_of_badId {c : Reg} {s : State} (bad : s.mem.release (s.reg c) = .error .badId) :
    exec (.unmap c) s = .next (s.takeFault .unmapBadSegment) := by
  simp only [exec, execUnmap, bad]

/-! ## Load Program -/

/-- R101. -/
theorem exec_loadprog_of_ok {b : Reg} {s : State} {m : Memory} (c : Reg)
    (copied : s.mem.dup0 s.config (s.reg b) = .ok m) :
    exec (.loadprog b c) s = .next ((s.setMem m).jump (s.reg c)) := by
  simp only [exec, execLoadprog, copied]

theorem exec_loadprog_of_badId {b : Reg} {s : State} (c : Reg)
    (bad : s.mem.dup0 s.config (s.reg b) = .error .badId) :
    exec (.loadprog b c) s = .next (s.takeFault .loadprogBadSegment) := by
  simp only [exec, execLoadprog, bad]

theorem exec_loadprog_of_exhausted {b : Reg} {s : State} (c : Reg)
    (exhausted : s.mem.dup0 s.config (s.reg b) = .error .exhausted) :
    exec (.loadprog b c) s = .next (s.takeFault .allocExhausted) := by
  simp only [exec, execLoadprog, exhausted]

/-! ## Input and output -/

/-- R106. -/
theorem exec_output_of_some {c : Reg} {s : State} {v : Byte} (byte : byteOperand (s.reg c) = some v) :
    exec (.output c) s = .next (s.emit v).advance := by
  simp only [exec, execOutput, byte]

theorem exec_output_of_none {c : Reg} {s : State} (above : byteOperand (s.reg c) = none) :
    exec (.output c) s = .next (s.takeFault .outputOutOfRange) := by
  simp only [exec, execOutput, above]

/-- R107: an item up to 255 is taken. -/
theorem exec_input_of_item {s : State} {v : Nat} {rest : InputPort} {w : Word} (c : Reg)
    (item : s.inp.read = .data v rest) (word : itemOperand v = some w) :
    exec (.input c) s = .next ((s.setInp rest).setReg c w).advance := by
  simp only [exec, execInput, item, word]

theorem exec_input_of_above {s : State} {v : Nat} {rest : InputPort} (c : Reg) (item : s.inp.read = .data v rest)
    (above : itemOperand v = none) : exec (.input c) s = .next (s.takeFault .inputOutOfRange) := by
  simp only [exec, execInput, item, above]

theorem exec_input_of_eof {s : State} (c : Reg) (eof : s.inp.read = .eof) :
    exec (.input c) s = .next (s.setReg c allOnes).advance := by
  simp only [exec, execInput, eof]

theorem exec_input_of_waits {s : State} (c : Reg) (waits : s.inp.read = .waits) :
    exec (.input c) s = .fault .inputWaits := by
  simp only [exec, execInput, waits]

end Sys2Proof.Machine
end

section
/-! PROOF. The sequencer of spec/40_sequencer.md: how a step ends, where it leaves the pc, and when there is none. Each
statement reads off the cases of `step_cases` and `exec_cases`. -/

namespace Sys2Proof.Machine

/-! ## The fetch -/

/-- R83: a pc at or beyond the length of segment 0 faults. -/
theorem step_eq_pcFault {s : State} (running : s.status = .running) (past : s.mem.segLen 0#32 ≤ s.pc) :
    step s = .next (s.takeFault .pcOutOfRange) := by
  unfold step
  rw [running, Memory.fetch_eq_none.mpr past]

/-- R83, R113: the record of a failed fetch holds no word. -/
theorem pcFault_spec {s : State} (past : s.mem.segLen 0#32 ≤ s.pc) :
    (s.takeFault .pcOutOfRange).status = .faulted { code := .pcOutOfRange, pc := s.pc, word := none } := by
  rw [State.takeFault_status, State.faultRecord, Memory.fetch_eq_none.mpr past]

/-- Settles O18: the step is `exec` of the decoded word (`step_eq_exec`), and an encoded instruction decodes to itself. -/
theorem stepRunsDecodedInstruction : Obligations.StepRunsDecodedInstruction := by
  unfold Obligations.StepRunsDecodedInstruction
  refine ⟨fun s w => step_eq_exec, fun s i running word => ?_⟩
  rw [step_eq_exec running word, decode_encode]

/-- Settles O19: the failed fetch is taken as a fault, whose frame is `takeFault_spec`. -/
theorem fetchPastEndFaults : Obligations.FetchPastEndFaults := by
  unfold Obligations.FetchPastEndFaults
  intro s running past
  exact ⟨_, step_eq_pcFault running past, pcFault_spec past, (takeFault_spec s .pcOutOfRange).2⟩

/-- Settles O17: the empty image launches with segment 0 of length 0, so that pc 0 is already past its end. -/
theorem emptyImageFaultsAtOnce : Obligations.EmptyImageFaultsAtOnce := by
  unfold Obligations.EmptyImageFaultsAtOnce
  intro cfg input
  have fits : fitsLimit cfg 0 = true := fitsLimit_eq_true_iff.mpr fun limit _ => Nat.zero_le limit
  have past : (launch cfg [] input).mem.segLen 0#32 ≤ (launch cfg [] input).pc := BitVec.le_refl 0#32
  exact ⟨launch cfg [] input, _, boot_eq_ok.mpr ⟨[], rfl, Nat.two_pow_pos 32, fits, rfl⟩, step_eq_pcFault rfl past,
    pcFault_spec past⟩

/-! ## How a step ends -/

/-- R114: a step that ends Faulted took a fault, PC_OUT_OF_RANGE exactly where no word was fetched. -/
theorem eq_takeFault_of_step {s t : State} {r : FaultRecord} (hStep : step s = .next t)
    (faulted : t.status = .faulted r) :
    ∃ code, t = s.takeFault code ∧ r = s.faultRecord code ∧ (s.mem.fetch s.pc = none ↔ code = .pcOutOfRange) := by
  obtain ⟨running, ⟨unfetched, rfl⟩ | ⟨w, fetched, executed⟩⟩ := step_cases hStep
  · exact ⟨_, rfl, (RunStatus.faulted.inj faulted).symm, iff_of_true unfetched rfl⟩
  · obtain ⟨code, other, rfl⟩ | ⟨-, rfl⟩ | ⟨-, status, -⟩ := (exec_cases executed).2.1
    · exact ⟨code, rfl, (RunStatus.faulted.inj faulted).symm, iff_of_false (by simp [fetched]) other⟩
    · cases faulted
    · rw [status, running] at faulted
      cases faulted

/-- Settles O21: the step took a fault (`eq_takeFault_of_step`), which changes only the status (`takeFault_spec`) and
records the word fetched at the pc. -/
theorem faultingStepChangesOnlyStatus : Obligations.FaultingStepChangesOnlyStatus := by
  unfold Obligations.FaultingStepChangesOnlyStatus
  intro s t r hStep faulted
  obtain ⟨code, rfl, rfl, unfetched⟩ := eq_takeFault_of_step hStep faulted
  obtain ⟨-, regs, pc, store, ports, config⟩ := takeFault_spec s code
  exact ⟨regs, pc, store, ports, config, rfl, unfetched, fun w => Memory.fetch_eq_some.mp⟩

/-- Settles O22: a fault and every other instruction leave another status; Halt sets Halted. -/
theorem onlyHaltHalts : Obligations.OnlyHaltHalts := by
  unfold Obligations.OnlyHaltHalts
  intro s t hStep
  obtain ⟨running, ⟨unfetched, rfl⟩ | ⟨w, fetched, executed⟩⟩ := step_cases hStep
  · refine iff_of_false nofun fun ⟨w, word, _⟩ => ?_
    rw [Memory.fetch_eq_some.mpr word] at unfetched
    cases unfetched
  · have word := Memory.fetch_eq_some.mp fetched
    constructor
    · intro halted
      obtain ⟨code, -, rfl⟩ | ⟨isHalt, -⟩ | ⟨-, status, -⟩ := (exec_cases executed).2.1
      · cases halted
      · exact ⟨w, word, isHalt⟩
      · rw [status, running] at halted
        cases halted
    · rintro ⟨w', word', isHalt⟩
      obtain rfl : w' = w := Except.ok.inj (word'.symm.trans word)
      rw [isHalt] at executed
      cases executed
      rfl

/-! ## The pc (R84, R85) -/

/-- R85: a word at the pc stands below a 32-bit length, so that the increment does not wrap. -/
theorem toNat_pc_add_one {s : State} {w : Word} (word : s.mem.read 0#32 s.pc = .ok w) :
    (s.pc + 1#32).toNat = s.pc.toNat + 1 := by
  obtain ⟨-, answer⟩ | ⟨g, -, -, answer⟩ | ⟨g, -, below, -⟩ := s.mem.read_cases 0#32 s.pc
  · rw [answer] at word; cases word
  · rw [answer] at word; cases word
  · have := BitVec.lt_def.mp below
    have := g.len.isLt
    rw [BitVec.toNat_add]
    exact Nat.mod_eq_of_lt (by simp only [BitVec.toNat_ofNat]; omega)

/-- Settles O23: of the ways an instruction can leave the pc (`exec_cases`), those that stay Running are the increment,
which does not wrap (`toNat_pc_add_one`), and Load Program's jump. -/
theorem pcAfterEveryStep : Obligations.PcAfterEveryStep := by
  unfold Obligations.PcAfterEveryStep
  intro s t hStep stillRunning
  obtain ⟨-, ⟨-, rfl⟩ | ⟨w, fetched, executed⟩⟩ := step_cases hStep
  · cases stillRunning
  · have word := Memory.fetch_eq_some.mp fetched
    refine ⟨w, word, ?_⟩
    obtain ⟨code, -, rfl⟩ | ⟨-, rfl⟩ | ⟨-, -, ⟨notLoadprog, pc⟩ | ⟨b, c, isLoadprog, pc⟩⟩ := (exec_cases executed).2.1
    · cases stillRunning
    · cases stillRunning
    · exact ⟨fun b c isLoadprog => absurd isLoadprog (notLoadprog b c), fun _ => by rw [pc, toNat_pc_add_one word]⟩
    · refine ⟨fun b' c' isLoadprog' => ?_, fun notLoadprog => absurd isLoadprog (notLoadprog b c)⟩
      cases isLoadprog.symm.trans isLoadprog'
      exact pc

/-! ## Progress -/

/-- R108, R140: an instruction completes or is an Input whose host never sends; none is refused. -/
theorem exec_total (i : Instr) (s : State) : (∃ t, exec i s = .next t) ∨
    (exec i s = .fault .inputWaits ∧ ∃ c, i = .input c ∧ s.inp.items = [] ∧ s.inp.tail = .stall) := by
  cases i with
  | sload => exact .inl (by simp only [exec, execSload]; split <;> exact ⟨_, rfl⟩)
  | sstore => exact .inl (by simp only [exec, execSstore]; split <;> exact ⟨_, rfl⟩)
  | div => exact .inl (by simp only [exec, execDiv]; split <;> exact ⟨_, rfl⟩)
  | map => exact .inl (by simp only [exec, execMap]; split <;> exact ⟨_, rfl⟩)
  | unmap => exact .inl (by simp only [exec, execUnmap]; split <;> exact ⟨_, rfl⟩)
  | output => exact .inl (by simp only [exec, execOutput]; split <;> exact ⟨_, rfl⟩)
  | loadprog => exact .inl (by simp only [exec, execLoadprog]; split <;> exact ⟨_, rfl⟩)
  | input c =>
    obtain ⟨v, rest, -, item⟩ | ⟨-, -, eof⟩ | ⟨items, tail, waits⟩ := s.inp.read_cases
    · obtain ⟨-, above⟩ | ⟨-, w, word, -⟩ := itemOperand_cases v
      · exact .inl ⟨_, exec_input_of_above c item above⟩
      · exact .inl ⟨_, exec_input_of_item c item word⟩
    · exact .inl ⟨_, exec_input_of_eof c eof⟩
    · exact .inr ⟨exec_input_of_waits c waits, c, rfl, items, tail⟩
  | cmov | add | mul | nand | halt | lv | invalid14 | invalid15 => exact .inl ⟨_, rfl⟩

/-- Settles O24: a failed fetch answers a fault state, and the fetched instruction completes or waits (`exec_total`). -/
theorem everyStepCompletesButWaitingInput : Obligations.EveryStepCompletesButWaitingInput := by
  unfold Obligations.EveryStepCompletesButWaitingInput
  intro s running
  cases fetched : s.mem.fetch s.pc with
  | none => exact .inl ⟨_, step_eq_pcFault running (Memory.fetch_eq_none.mp fetched)⟩
  | some w =>
    have word := Memory.fetch_eq_some.mp fetched
    rw [step_eq_exec running word]
    obtain completes | ⟨waits, c, isInput, items, tail⟩ := exec_total (decode w) s
    · exact .inl completes
    · exact .inr ⟨waits, w, c, word, isInput, items, tail⟩

end Sys2Proof.Machine
end

section
/-! PROOF. The host's placing of one word (logs 6 and 27): the table word decodes as the word does, and the placed word is
what the next step fetches. -/

namespace Sys2Proof

/-- R9, R41: the image's four bytes of a word, put together again. -/
theorem concatBytes_wordBytes (w : Word) :
    concatBytes (getField w 8 24) (getField w 8 16) (getField w 8 8) (getField w 8 0) = w := by
  apply BitVec.eq_of_toNat_eq
  simp only [toNat_concatBytes, toNat_getField]
  have := w.isLt
  omega

/-- Log 27: a table word of 32 bits is the word. -/
theorem ofNat_toNat_mod (w : Word) : BitVec.ofNat 32 (w.toNat % 2 ^ 32) = w := by
  rw [Nat.mod_eq_of_lt w.isLt, BitVec.ofNat_toNat, BitVec.setWidth_eq]

theorem decodeTableWord_toNat (w : Word) : decodeTableWord 32 w.toNat = some (decode w) := by
  simp only [decodeTableWord, ofNat_toNat_mod, wordBytes, decodeBytes, concatBytes_wordBytes]

end Sys2Proof

namespace Sys2Proof.Machine

theorem fetchablePc_ne_allOnes (pc : Word) : fetchablePc pc ≠ allOnes := by
  unfold fetchablePc
  split
  next => decide
  next other => exact other

/-- R85: only the all-ones pc wraps. -/
theorem lt_add_one_of_ne_allOnes {pc : Word} (notLast : pc ≠ allOnes) : pc < pc + 1 := by
  have notMax : pc.toNat ≠ 4294967295 := fun e => notLast (BitVec.eq_of_toNat_eq e)
  have := pc.isLt
  rw [BitVec.lt_def, BitVec.toNat_add]
  simp only [BitVec.ofNat_eq_ofNat, BitVec.toNat_ofNat]
  omega

/-- Log 6: segment 0 made just long enough for a word at `pc`, as `placeWord` makes it (`segment?_placeWord`). -/
def Memory.programFor (m : Memory) (pc : Word) : Segment :=
  { (m.segment? 0#32).getD (Segment.zeroed 0#32) with
    len := if ((m.segment? 0#32).getD (Segment.zeroed 0#32)).len ≤ pc then pc + 1
      else ((m.segment? 0#32).getD (Segment.zeroed 0#32)).len }

theorem Memory.segment?_placeWord (m : Memory) (pc w : Word) :
    (m.placeWord pc w).segment? 0#32 = some ((m.programFor pc).set pc w) := by
  unfold Memory.placeWord
  split <;> rfl

theorem Memory.lt_programFor_len (m : Memory) {pc : Word} (notLast : pc ≠ allOnes) : pc < (m.programFor pc).len := by
  unfold Memory.programFor
  split
  next => exact lt_add_one_of_ne_allOnes notLast
  next inside => exact BitVec.not_le.mp inside

/-- The words of a canonical program have rising offsets, whatever its length is set to. -/
theorem Memory.programFor_cells_pairwise {m : Memory} (canonical : m.wf) (pc : Word) :
    (m.programFor pc).cells.Pairwise fun p q => p.1 < q.1 := by
  unfold Memory.programFor
  cases found : m.segment? 0#32 with
  | none => exact (Segment.zeroed_wf 0#32).1
  | some g => exact (Memory.segment?_wf canonical found).1

/-- Log 6: the placed word is read where it was placed. -/
theorem Memory.read_placeWord {m : Memory} {pc : Word} (canonical : m.wf) (notLast : pc ≠ allOnes) (w : Word) :
    (m.placeWord pc w).read 0#32 pc = .ok w := by
  rw [Memory.read_of_segment? (m.segment?_placeWord pc w), Segment.set_len, if_pos (m.lt_programFor_len notLast),
    Segment.get, Segment.set, cellsGet_cellsSet _ _ _ (Memory.programFor_cells_pairwise canonical pc), if_pos rfl]

/-- Settles O11: the table word's bytes are the word's (`decodeTableWord_toNat`), and the placed word stands at the pc of
a running core (`Memory.read_placeWord`), whose step executes it. -/
theorem tableWordRunsNext : Obligations.TableWordRunsNext := by
  unfold Obligations.TableWordRunsNext
  intro w s canonical
  refine ⟨decodeTableWord_toNat w, step_eq_exec rfl ?_⟩
  simp only [State.withFetchWord, ofNat_toNat_mod]
  exact Memory.read_placeWord canonical (fetchablePc_ne_allOnes s.pc) w

end Sys2Proof.Machine
end

section
/-! PROOF. The instructions that can fault (spec/42_segment_access.md to 46_io.md): encoding, result, frame and faults,
from the equations of their outcomes. -/

namespace Sys2Proof.Machine

/-! ## Frames -/

/-- R84: the frame of a new store and the pc's advance. -/
theorem setMem_advance_frame (s : State) (m : Memory) :
    SameRegs s (s.setMem m).advance ∧ (s.setMem m).advance.pc = s.pc + 1#32 ∧ SamePorts s (s.setMem m).advance ∧
      SameStatus s (s.setMem m).advance :=
  ⟨fun _ => rfl, rfl, ⟨rfl, rfl⟩, ⟨rfl, rfl⟩⟩

/-! ## DIV, HALT and the INVALID words -/

/-- Settles O45: with a nonzero divisor DIV is one register write of the quotient; with zero it takes the fault. -/
theorem divideResult : Obligations.DivideResult := by
  unfold Obligations.DivideResult
  refine ⟨fun _ hOp => decode_div hOp, fun a b c s => ⟨fun divisor => ?quotient, fun divisor => ?fault⟩⟩
  case quotient =>
    refine ⟨_, exec_div_of_ne_zero a b divisor, ?_, setReg_advance_frame s a _⟩
    rw [reg_setReg_advance_same, BitVec.toNat_udiv]
  case fault => exact ⟨_, exec_div_of_zero a b divisor, takeFault_spec s _⟩

/-- Settles O49: HALT sets the status and advances the pc. -/
theorem haltResult : Obligations.HaltResult := by
  unfold Obligations.HaltResult
  exact ⟨fun _ hOp => decode_halt hOp, fun s =>
    ⟨(s.setStatus .halted).advance, rfl, rfl, fun _ => rfl, ⟨fun _ _ => rfl, rfl, rfl⟩, ⟨rfl, rfl⟩, rfl⟩⟩

/-- Settles O56: both INVALID rows take the one fault. -/
theorem invalidOpcodeFaults : Obligations.InvalidOpcodeFaults := by
  unfold Obligations.InvalidOpcodeFaults
  refine ⟨fun _ hOp => decode_invalid14 hOp, fun _ hOp => decode_invalid15 hOp, fun i s invalid => ?_⟩
  rcases invalid with rfl | rfl
  · exact ⟨_, rfl, takeFault_spec s .invalidOpcode⟩
  · exact ⟨_, rfl, takeFault_spec s .invalidOpcode⟩

/-! ## SLOAD and SSTORE -/

/-- Settles O47: SLOAD follows the read's three answers, each decided by the segment found. -/
theorem segmentLoadResult : Obligations.SegmentLoadResult := by
  unfold Obligations.SegmentLoadResult
  refine ⟨fun _ hOp => decode_sload hOp, fun a b c s =>
    ⟨fun g mapped below => ?loaded, fun bad => ?badId, fun g mapped past => ?badOff⟩⟩
  case loaded =>
    have word : s.mem.read (s.reg b) (s.reg c) = .ok (g.get (s.reg c)) := by
      rw [Memory.read_of_segment? (Memory.segment?_eq_some.mpr mapped), if_pos below]
    refine ⟨_, exec_sload_of_ok word, ?_, setReg_advance_frame s a _⟩
    rw [word, reg_setReg_advance_same]
  case badId =>
    have noSegment := Memory.segment?_eq_none.mpr bad
    exact ⟨_, exec_sload_of_badId a (Memory.read_eq_badId_iff.mpr noSegment), takeFault_spec s _⟩
  case badOff =>
    have found := Memory.segment?_eq_some.mpr mapped
    exact ⟨_, exec_sload_of_badOff a (Memory.read_eq_badOff_iff.mpr ⟨g, found, past⟩), takeFault_spec s _⟩

/-- Settles O48: SSTORE follows the write's three answers; where it stores, the store's frame is `readAfterWrite`. -/
theorem segmentStoreResult : Obligations.SegmentStoreResult := by
  unfold Obligations.SegmentStoreResult
  refine ⟨fun _ hOp => decode_sstore hOp, fun a b c s canonical =>
    ⟨fun g mapped below => ?stored, fun bad => ?badId, fun g mapped past => ?badOff⟩⟩
  case stored =>
    have written := Memory.write_of_segment? (Memory.segment?_eq_some.mpr mapped) below (s.reg c)
    obtain ⟨readBack, frame, lens, -, free, slots⟩ := readAfterWrite _ _ _ _ _ canonical written
    exact ⟨_, exec_sstore_of_ok written, rfl, readBack,
      fun id off other => frame id off fun ⟨sameId, sameOff⟩ => other (Prod.ext sameId sameOff), lens, free, slots,
      setMem_advance_frame s _⟩
  case badId =>
    have noSegment := Memory.segment?_eq_none.mpr bad
    exact ⟨_, exec_sstore_of_badId (Memory.write_eq_badId_iff.mpr noSegment), takeFault_spec s _⟩
  case badOff =>
    have found := Memory.segment?_eq_some.mpr mapped
    exact ⟨_, exec_sstore_of_badOff (Memory.write_eq_badOff_iff.mpr ⟨g, found, past⟩), takeFault_spec s _⟩

/-- Settles O40: the store completes, and the stored word is read back at the next pc (`Memory.read_write`), where the
running core fetches it. -/
theorem storedInstructionRunsNext : Obligations.StoredInstructionRunsNext := by
  unfold Obligations.StoredInstructionRunsNext
  intro s w a b c inv running word isStore program nextOffset inside
  obtain ⟨-, store⟩ := inv_iff.mp inv
  obtain ⟨g, mapped⟩ := Memory.valid_iff.mp store.slotZero
  have found : s.mem.segment? 0#32 = some g := Memory.segment?_eq_some.mpr mapped
  have below : s.reg b < g.len := by rwa [Memory.segLen_of_segment? found] at inside
  have written := Memory.write_of_segment? (program ▸ found) below (s.reg c)
  have executed : step s = exec (.sstore a b c) s := by rw [step_eq_exec running word, isStore]
  refine ⟨_, executed.trans (exec_sstore_of_ok written), rfl, step_eq_exec running ?next⟩
  case next =>
    rw [State.advance_mem, State.setMem_mem, Memory.read_write store.canonical written, if_pos]
    exact ⟨program.symm, nextOffset.symm⟩

/-! ## MAP and UNMAP -/

/-- R104: MAP's new segment and frame, whichever ID Alloc took. -/
theorem exec_map_result {s : State} {c : Reg} {id : Word} {m : Memory} (b : Reg) (inv : Inv s)
    (allocated : s.mem.alloc s.config (s.reg c) = some (id, m)) :
    ∃ t, exec (.map b c) s = .next t ∧ t.reg b = id ∧ t.mem = m ∧
      (∀ off, t.mem.read (t.reg b) off = if off < s.reg c then .ok 0#32 else .error .badOff) ∧
      (∀ k off, k ≠ t.reg b → t.mem.read k off = s.mem.read k off) ∧
      SameRegsBut b s t ∧ t.pc = s.pc + 1#32 ∧ SamePorts s t ∧ SameStatus s t := by
  obtain ⟨limits, store⟩ := inv_iff.mp inv
  have segment := store.segment?_alloc limits allocated
  have fresh : m.segment? id = some (Segment.zeroed (s.reg c)) := by rw [segment, if_pos rfl]
  have newId := reg_setReg_advance_same (s.setMem m) b id
  obtain ⟨regs, pc, -, ports, status⟩ := setReg_advance_frame (s.setMem m) b id
  refine ⟨_, exec_map_of_some b allocated, newId, rfl, fun off => ?words, fun k off other => ?frame, regs, pc, ports,
    status⟩
  case words => rw [newId]; exact Memory.read_of_segment? fresh off
  case frame =>
    rw [newId] at other
    exact Memory.read_congr ((segment k).trans (if_neg other)) off

/-- Settles O50: with room Alloc takes the top of the free list or, that being empty, appends a slot; the rest is
`exec_map_result`. -/
theorem mapResult : Obligations.MapResult := by
  unfold Obligations.MapResult
  refine ⟨fun _ hOp => decode_map hOp, fun b c s inv => ⟨fun fits room => ?mapped, fun exhausted => ?fault⟩⟩
  case mapped =>
    cases free : s.mem.free with
    | cons top rest =>
      obtain ⟨t, executed, newId, mem, result⟩ := exec_map_result b inv (Memory.alloc_of_free_cons free fits)
      refine ⟨t, executed, ?popped, nofun, result⟩
      case popped =>
        rintro _ _ ⟨⟩
        exact ⟨newId, by rw [mem], by rw [mem]; exact List.length_set⟩
    | nil =>
      have below : s.mem.slots.length < s.config.maxSlots := room.resolve_left fun notEmpty => notEmpty free
      have noWrap : s.mem.slots.length < 2 ^ 32 := Nat.lt_of_lt_of_le below (inv_iff.mp inv).1.2
      obtain ⟨t, executed, newId, mem, result⟩ := exec_map_result b inv (Memory.alloc_of_free_nil free fits below)
      refine ⟨t, executed, nofun, fun _ => ?appended, result⟩
      case appended =>
        exact ⟨by rw [newId]; exact Nat.mod_eq_of_lt noWrap, by rw [mem], by rw [mem]; exact List.length_append⟩
  case fault => exact ⟨_, exec_map_of_none b (Memory.alloc_eq_none.mpr exhausted), takeFault_spec s _⟩

/-- Settles O51: UNMAP follows Free's three answers; the freed ID's frame is `freedIdInvalidAtOnce`. -/
theorem unmapResult : Obligations.UnmapResult := by
  unfold Obligations.UnmapResult
  refine ⟨fun _ hOp => decode_unmap hOp, fun c s =>
    ⟨fun nonzero valid => ?freed, fun zero => ?zeroId, fun nonzero bad => ?badId⟩⟩
  case freed =>
    have freed := Memory.release_eq_ok_iff.mpr ⟨nonzero, valid, rfl⟩
    obtain ⟨invalid, frame⟩ := freedIdInvalidAtOnce _ _ _ freed
    obtain ⟨g, mapped⟩ := Memory.valid_iff.mp valid
    have inRange := Memory.lt_of_segment? (Memory.segment?_eq_some.mpr mapped)
    exact ⟨_, exec_unmap_of_ok freed, List.getElem?_set_self inRange, rfl, List.length_set,
      fun off => (invalid off 0#32).1, frame, setMem_advance_frame s _⟩
  case zeroId =>
    have answer : s.mem.release (s.reg c) = .error .zeroId := by rw [Memory.release, if_pos zero]
    exact ⟨_, exec_unmap_of_zeroId answer, takeFault_spec s _⟩
  case badId =>
    have invalid : ¬s.mem.valid (s.reg c) = true := by rw [Memory.valid, Memory.segment?_eq_none.mpr bad]; nofun
    have answer : s.mem.release (s.reg c) = .error .badId := by rw [Memory.release, if_neg nonzero, if_neg invalid]
    exact ⟨_, exec_unmap_of_badId answer, takeFault_spec s _⟩

/-! ## LOADPROG -/

/-- R101: ID 0 copies nothing, so that the pc alone changes. -/
theorem exec_loadprog_of_zero {b : Reg} {s : State} (c : Reg) (zero : s.reg b = 0#32) :
    exec (.loadprog b c) s = .next (s.jump (s.reg c)) :=
  exec_loadprog_of_ok c (by rw [Memory.dup0, if_pos zero])

/-- R12: the frame of a jump. -/
theorem jump_frame (s : State) (target : Word) :
    SameRegs s (s.jump target) ∧ SameStore s (s.jump target) ∧ SamePorts s (s.jump target) ∧
      SameStatus s (s.jump target) :=
  ⟨fun _ => rfl, ⟨fun _ _ => rfl, rfl, rfl⟩, ⟨rfl, rfl⟩, ⟨rfl, rfl⟩⟩

/-- Settles O54: with ID 0 the instruction is `State.jump`. -/
theorem loadProgramZeroJumps : Obligations.LoadProgramZeroJumps := by
  unfold Obligations.LoadProgramZeroJumps
  exact ⟨fun _ hOp => decode_loadprog hOp, fun b c s zero =>
    ⟨_, exec_loadprog_of_zero c zero, rfl, jump_frame s (s.reg c)⟩⟩

/-- Settles O55: LOADPROG follows Dup0's answers; where it copies, segment 0 and the frame are those of
`programCopyIsIndependent`. -/
theorem loadProgramReplaces : Obligations.LoadProgramReplaces := by
  unfold Obligations.LoadProgramReplaces
  intro b c s _ nonzero
  refine ⟨fun g mapped fits => ?copied, fun bad => ?badId, fun g mapped exceeds => ?exhausted⟩
  case copied =>
    have found := Memory.segment?_eq_some.mpr mapped
    have copied := (Memory.dup0_eq_ok_iff nonzero).mpr ⟨g, found, fits, rfl⟩
    obtain ⟨copy, len, frame, -⟩ := programCopyIsIndependent _ _ _ _ nonzero copied
    exact ⟨_, exec_loadprog_of_ok c copied, rfl, copy, len.trans (Memory.segLen_of_segment? found), frame, rfl,
      List.length_set, fun _ => rfl, ⟨rfl, rfl⟩, ⟨rfl, rfl⟩⟩
  case badId =>
    have answer : s.mem.dup0 s.config (s.reg b) = .error .badId := by
      rw [Memory.dup0, if_neg nonzero, Memory.segment?_eq_none.mpr bad]
    exact ⟨_, exec_loadprog_of_badId c answer, takeFault_spec s _⟩
  case exhausted =>
    have answer : s.mem.dup0 s.config (s.reg b) = .error .exhausted := by
      simp only [Memory.dup0, if_neg nonzero, Memory.segment?_eq_some.mpr mapped, exceeds, Bool.false_eq_true, if_false]
    exact ⟨_, exec_loadprog_of_exhausted c answer, takeFault_spec s _⟩

/-- Settles O57: CMOV leaves the chosen target in rT and rZ at 0 (`exec_cmov_eq`), so that LOADPROG jumps to it
(`exec_loadprog_of_zero`). -/
theorem conditionalJumpIdiom : Obligations.ConditionalJumpIdiom := by
  unfold Obligations.ConditionalJumpIdiom
  intro s rT rT1 rK rZ other zero
  obtain ⟨regs, -, store, ports, status⟩ :=
    setReg_advance_frame s rT (if s.reg rK ≠ 0#32 then s.reg rT1 else s.reg rT)
  have stillZero := (regs rZ other.symm).trans zero
  refine ⟨_, _, exec_cmov_eq rT rT1 rK s, exec_loadprog_of_zero rT stillZero, ?pc, store, ports, status⟩
  case pc => rw [State.jump_pc, reg_setReg_advance_same]

/-! ## OUT and IN -/

/-- Settles O52: the byte operand is the value exactly up to 255 (`byteOperand_cases`). -/
theorem outputResult : Obligations.OutputResult := by
  unfold Obligations.OutputResult
  refine ⟨fun _ hOp => decode_output hOp, fun c s => ?_⟩
  obtain ⟨above, none⟩ | ⟨within, v, byte, value⟩ := byteOperand_cases (s.reg c)
  · refine ⟨fun within => ?_, fun _ => ⟨_, exec_output_of_none none, takeFault_spec s _⟩⟩
    omega
  · refine ⟨fun _ => ⟨_, v, exec_output_of_some byte, rfl, value, rfl, fun _ => rfl, rfl, ⟨fun _ _ => rfl, rfl, rfl⟩,
      ⟨rfl, rfl⟩⟩, fun above => ?_⟩
    omega

/-- R108: the head item is what is read. -/
theorem InputPort.read_of_cons {p : InputPort} {v : Nat} {rest : List Nat} (items : p.items = v :: rest) :
    p.read = .data v { items := rest, tail := p.tail } := by
  simp only [InputPort.read, items]

theorem InputPort.read_of_eof {p : InputPort} (items : p.items = []) (tail : p.tail = .eof) : p.read = .eof := by
  simp only [InputPort.read, items, tail]

theorem InputPort.read_of_stall {p : InputPort} (items : p.items = []) (tail : p.tail = .stall) : p.read = .waits := by
  simp only [InputPort.read, items, tail]

/-- Settles O53: IN follows what is read, and an item is a word exactly up to 255 (`itemOperand_cases`). -/
theorem inputResult : Obligations.InputResult := by
  unfold Obligations.InputResult
  refine ⟨fun _ hOp => decode_input hOp, fun c s => ⟨fun v rest items within => ?item, fun items tail => ?eof,
    fun v rest items above => ?above, fun items tail => ?stall⟩⟩
  case item =>
    obtain ⟨above, -⟩ | ⟨-, w, word, value⟩ := itemOperand_cases v
    · omega
    · obtain ⟨regs, pc, store, ⟨inp, out⟩, status⟩ :=
        setReg_advance_frame (s.setInp { items := rest, tail := s.inp.tail }) c w
      refine ⟨_, exec_input_of_item c (InputPort.read_of_cons items) word, ?_, inp, out, regs, pc, store, status⟩
      rw [reg_setReg_advance_same, value]
  case eof =>
    obtain ⟨regs, pc, store, ports, status⟩ := setReg_advance_frame s c allOnes
    exact ⟨_, exec_input_of_eof c (InputPort.read_of_eof items tail), reg_setReg_advance_same s c allOnes, ports, regs,
      pc, store, status⟩
  case above =>
    obtain ⟨-, none⟩ | ⟨within, -⟩ := itemOperand_cases v
    · exact ⟨_, exec_input_of_above c (InputPort.read_of_cons items) none, takeFault_spec s _⟩
    · omega
  case stall => exact exec_input_of_waits c (InputPort.read_of_stall items tail)

end Sys2Proof.Machine
end

section
/-! PROOF. The frames over all instructions: the register table of spec/10_state.md section 2, the store (section 5), and
the ports (spec/46_io.md). -/

namespace Sys2Proof.Machine

/-! ## What an instruction leaves of the registers and the ports -/

/-- How executing an instruction leaves the registers (R19, column "writes"). -/
def RegStep (i : Instr) (s t : State) : Prop := ∀ r, destReg i ≠ some r → t.reg r = s.reg r

/-- How executing an instruction leaves the ports (R110): as they were, or by the one request its rule makes. -/
def PortStep (i : Instr) (s t : State) : Prop :=
  SamePorts s t ∨
    (∃ c v, i = .input c ∧ s.inp.items = v :: t.inp.items ∧ t.inp.tail = s.inp.tail ∧ t.out = s.out) ∨
    ∃ c b, i = .output c ∧ t.inp = s.inp ∧ t.out = s.out ++ [b]

/-- R10: a write to the destination, after any change that keeps the registers. -/
theorem RegStep.setReg_advance {i : Instr} {s u : State} {a : Reg} (w : Word) (dest : destReg i = some a)
    (same : SameRegs s u) : RegStep i s (u.setReg a w).advance := by
  intro r notDest
  have other : r ≠ a := fun e => notDest (e ▸ dest)
  rw [State.reg_advance, State.reg_setReg, if_neg other, same r]

/-- R19, R110: what any instruction can do to the registers and the ports, beside `exec_cases`. -/
theorem exec_regs_ports {i : Instr} {s t : State} (h : exec i s = .next t) : RegStep i s t ∧ PortStep i s t := by
  have fault : ∀ {i : Instr} (code : FaultCode), RegStep i s (s.takeFault code) ∧ PortStep i s (s.takeFault code) :=
    fun _ => ⟨fun _ _ => rfl, .inl ⟨rfl, rfl⟩⟩
  have write : ∀ {i : Instr} {a : Reg} (w : Word), destReg i = some a →
      RegStep i s (s.setReg a w).advance ∧ PortStep i s (s.setReg a w).advance := fun w dest =>
    ⟨.setReg_advance w dest fun _ => rfl, .inl ⟨rfl, rfl⟩⟩
  have store : ∀ {i : Instr} (m : Memory), RegStep i s (s.setMem m).advance ∧ PortStep i s (s.setMem m).advance :=
    fun _ => ⟨fun _ _ => rfl, .inl ⟨rfl, rfl⟩⟩
  cases i with
  | cmov a b c => rw [exec_cmov_eq] at h; cases h; exact write _ rfl
  | sload a b c =>
    simp only [exec, execSload] at h
    split at h <;> cases h
    · exact write _ rfl
    all_goals exact fault _
  | sstore a b c =>
    simp only [exec, execSstore] at h
    split at h <;> cases h
    · exact store _
    all_goals exact fault _
  | add a b c => cases h; exact write _ rfl
  | mul a b c => cases h; exact write _ rfl
  | div a b c =>
    simp only [exec, execDiv] at h
    split at h <;> cases h
    · exact fault _
    · exact write _ rfl
  | nand a b c => cases h; exact write _ rfl
  | halt => cases h; exact ⟨fun _ _ => rfl, .inl ⟨rfl, rfl⟩⟩
  | map b c =>
    simp only [exec, execMap] at h
    split at h <;> cases h
    · exact ⟨.setReg_advance _ rfl fun _ => rfl, .inl ⟨rfl, rfl⟩⟩
    · exact fault _
  | unmap c =>
    simp only [exec, execUnmap] at h
    split at h <;> cases h
    · exact store _
    all_goals exact fault _
  | output c =>
    simp only [exec, execOutput] at h
    split at h <;> cases h
    · exact ⟨fun _ _ => rfl, .inr (.inr ⟨c, _, rfl, rfl, rfl⟩)⟩
    · exact fault _
  | input c =>
    obtain ⟨v, rest, items, item⟩ | ⟨-, -, eof⟩ | ⟨-, -, waits⟩ := s.inp.read_cases
    · obtain ⟨-, above⟩ | ⟨-, w, word, -⟩ := itemOperand_cases v
      · rw [exec_input_of_above c item above] at h; cases h; exact fault _
      · rw [exec_input_of_item c item word] at h; cases h
        exact ⟨.setReg_advance w rfl fun _ => rfl, .inr (.inl ⟨c, v, rfl, items, rfl, rfl⟩)⟩
    · rw [exec_input_of_eof c eof] at h; cases h; exact write _ rfl
    · rw [exec_input_of_waits c waits] at h; cases h
  | loadprog b c =>
    simp only [exec, execLoadprog] at h
    split at h <;> cases h
    · exact ⟨fun _ _ => rfl, .inl ⟨rfl, rfl⟩⟩
    all_goals exact fault _
  | lv a imm => cases h; exact write _ rfl
  | invalid14 => cases h; exact fault _
  | invalid15 => cases h; exact fault _

/-- Settles O29: the register half of `exec_regs_ports`. -/
theorem registerWriteTable : Obligations.RegisterWriteTable := by
  unfold Obligations.RegisterWriteTable
  exact fun i s t executed => (exec_regs_ports executed).1

/-- Settles O31: of the ways an instruction can leave the store (`StoreStep`), the four requests belong to the four
instructions excluded. -/
theorem storeChangedByFourInstructions : Obligations.StoreChangedByFourInstructions := by
  unfold Obligations.StoreChangedByFourInstructions
  intro i s t notSstore notMap notUnmap notLoadprog executed
  obtain same | ⟨a, b, c, h, -⟩ | ⟨b, c, -, h, -⟩ | ⟨c, h, -⟩ | ⟨b, c, h, -⟩ := (exec_cases executed).1
  · exact ⟨fun _ _ => by rw [same], by rw [same], by rw [same]⟩
  · exact absurd h (notSstore a b c)
  · exact absurd h (notMap b c)
  · exact absurd h (notUnmap c)
  · exact absurd h (notLoadprog b c)

/-- Settles O32: the port half of `exec_regs_ports`, and the launch parameters from `exec_cases`. -/
theorem portsChangedByInputAndOutput : Obligations.PortsChangedByInputAndOutput := by
  unfold Obligations.PortsChangedByInputAndOutput
  intro i s t executed
  have config := (exec_cases executed).2.2
  obtain ⟨inp, out⟩ | ⟨c, v, isInput, items, tail, out⟩ | ⟨c, b, isOutput, inp, out⟩ := (exec_regs_ports executed).2
  · exact ⟨fun _ => inp, fun _ => out, .inl inp, .inl out, config⟩
  · exact ⟨fun notInput => absurd isInput (notInput c), fun _ => out, .inr ⟨v, items, tail⟩, .inl out, config⟩
  · exact ⟨fun _ => inp, fun notOutput => absurd isOutput (notOutput c), .inl inp, .inr ⟨b, out⟩, config⟩

/-! ## A register neither read nor written -/

/-- An outcome with its next state, if it has one, changed. -/
def mapNext (f : State → State) : Host.Outcome State Fault Refusal → Host.Outcome State Fault Refusal
  | .next t => .next (f t)
  | .fault r => .fault r
  | .refused r => .refused r

/-- R10: a register write after one to another register. -/
theorem setReg_setReg_advance (s : State) {a r : Reg} (v w : Word) (other : r ≠ a) :
    ((s.setReg r v).setReg a w).advance = (s.setReg a w).advance.setReg r v := by
  rw [State.setReg_comm s r a v w other]; rfl

/-- R19: executing an instruction commutes with changing a register it neither reads nor writes. -/
theorem exec_setReg {i : Instr} (s : State) {r : Reg} (v : Word) (notRead : r ∉ sourceRegs i)
    (notWritten : destReg i ≠ some r) : exec i (s.setReg r v) = mapNext (·.setReg r v) (exec i s) := by
  have read : ∀ d ∈ sourceRegs i, (s.setReg r v).reg d = s.reg d := fun d isSource => by
    have other : d ≠ r := fun e => notRead (e ▸ isSource)
    rw [State.reg_setReg, if_neg other]
  have write : ∀ {a : Reg} (u : State) (w : Word), destReg i = some a →
      ((u.setReg r v).setReg a w).advance = (u.setReg a w).advance.setReg r v := fun u w dest =>
    setReg_setReg_advance u v w fun e => notWritten (e ▸ dest)
  cases i with
  | cmov a b c =>
    simp only [exec, execCmov, read b (by simp [sourceRegs]), read c (by simp [sourceRegs])]
    split
    · exact congrArg _ (write s _ rfl)
    · rfl
  | sload a b c =>
    simp only [exec, execSload, State.effAddr, State.setReg_mem, read b (by simp [sourceRegs]),
      read c (by simp [sourceRegs])]
    split
    · exact congrArg _ (write s _ rfl)
    all_goals rfl
  | sstore a b c =>
    simp only [exec, execSstore, State.effAddr, State.setReg_mem, read a (by simp [sourceRegs]),
      read b (by simp [sourceRegs]), read c (by simp [sourceRegs])]
    split <;> rfl
  | add a b c =>
    rw [exec_add_eq, exec_add_eq, read b (by simp [sourceRegs]), read c (by simp [sourceRegs])]
    exact congrArg _ (write s _ rfl)
  | mul a b c =>
    rw [exec_mul_eq, exec_mul_eq, read b (by simp [sourceRegs]), read c (by simp [sourceRegs])]
    exact congrArg _ (write s _ rfl)
  | div a b c =>
    simp only [exec, execDiv, read b (by simp [sourceRegs]), read c (by simp [sourceRegs])]
    split
    · rfl
    · exact congrArg _ (write s _ rfl)
  | nand a b c =>
    rw [exec_nand_eq, exec_nand_eq, read b (by simp [sourceRegs]), read c (by simp [sourceRegs])]
    exact congrArg _ (write s _ rfl)
  | halt => rfl
  | map b c =>
    simp only [exec, execMap, State.setReg_mem, State.setReg_config, read c (by simp [sourceRegs])]
    split
    next id m _ => exact congrArg _ (write (s.setMem m) id rfl)
    next => rfl
  | unmap c =>
    simp only [exec, execUnmap, State.setReg_mem, read c (by simp [sourceRegs])]
    split <;> rfl
  | output c =>
    simp only [exec, execOutput, read c (by simp [sourceRegs])]
    split <;> rfl
  | input c =>
    simp only [exec, execInput, State.setReg_inp]
    split
    next v rest _ =>
      split
      next w _ => exact congrArg _ (write (s.setInp rest) w rfl)
      next => rfl
    next => exact congrArg _ (write s _ rfl)
    next => rfl
  | loadprog b c =>
    simp only [exec, execLoadprog, State.setReg_mem, State.setReg_config, read b (by simp [sourceRegs]),
      read c (by simp [sourceRegs])]
    split <;> rfl
  | lv a imm => exact congrArg _ (write s _ rfl)
  | invalid14 => rfl
  | invalid15 => rfl

/-- Settles O30: a next state and a stop are each what `exec_setReg` carries over. -/
theorem registerReadTable : Obligations.RegisterReadTable := by
  unfold Obligations.RegisterReadTable
  intro i s r v notRead notWritten
  have commutes := exec_setReg s v notRead notWritten
  exact ⟨fun t completes => by rw [commutes, completes]; rfl, fun f stops => by rw [commutes, stops]; rfl⟩

end Sys2Proof.Machine
end

section
/-! PROOF. The boot interface of spec/70_reset_and_hazards.md: the images refused (R132, R133), the launched program
(R129) and the reset state. -/

namespace Sys2Proof.Machine

/-! ## The loader's count -/

/-- R131: the loader's words are a quarter of the bytes. -/
theorem length_of_load {bytes : List Byte} {ws : List Word} (loaded : load bytes = some ws) :
    bytes.length = 4 * ws.length := by
  induction bytes using load.induct generalizing ws with
  | case1 =>
    obtain rfl : [] = ws := Option.some.inj loaded
    rfl
  | case2 a b c d rest ih =>
    rw [load, Option.map_eq_some_iff] at loaded
    obtain ⟨ws', loaded, rfl⟩ := loaded
    simp only [List.length_cons, ih loaded]
    omega
  | case3 bytes notNil notFour =>
    rw [load] at loaded
    · cases loaded
    · exact notNil
    · exact notFour

/-- R132: the loader refuses exactly the images with a partial word. -/
theorem load_eq_none_iff {bytes : List Byte} : load bytes = none ↔ bytes.length % 4 ≠ 0 := by
  cases loaded : load bytes with
  | none =>
    refine iff_of_true rfl fun whole => ?_
    obtain ⟨ws, accepted, -⟩ := exists_load_of_length (bytes.length / 4) bytes (by omega)
    rw [loaded] at accepted
    cases accepted
  | some ws =>
    have := length_of_load loaded
    exact iff_of_false nofun (by omega)

/-! ## The refusals -/

/-- R133: a total exceeds the limit exactly when there is one below it. -/
theorem fitsLimit_eq_false_iff {cfg : Config} {total : Nat} :
    fitsLimit cfg total = false ↔ ∃ limit, cfg.maxTotalWords = some limit ∧ limit < total := by
  unfold fitsLimit
  split <;> simp_all

/-- R134: a whole image is refused or launched by its word count. -/
theorem boot_of_load {cfg : Config} {image : List Byte} {ws : List Word} (input : InputPort)
    (loaded : load image = some ws) : boot cfg image input =
      if 2 ^ 32 - 1 < ws.length then .error .tooLong
      else if fitsLimit cfg ws.length then .ok (launch cfg ws input) else .error .overLimit := by
  simp only [boot, loaded]

/-- Settles O16: a partial word is refused by the loader (`load_eq_none_iff`); otherwise the word count is a quarter of
the bytes and the two bounds are checked in order (`boot_of_load`). -/
theorem bootRefusesExactly : Obligations.BootRefusesExactly := by
  unfold Obligations.BootRefusesExactly
  intro cfg image input
  cases loaded : load image with
  | none =>
    have partialWord := load_eq_none_iff.mp loaded
    have answer : boot cfg image input = .error .partialWord := by simp only [boot, loaded]
    simp [answer, partialWord]
  | some ws =>
    have count := length_of_load loaded
    have whole : image.length % 4 = 0 := by omega
    have words : image.length / 4 = ws.length := by omega
    rw [boot_of_load input loaded, whole, words, ← fitsLimit_eq_true_iff, ← fitsLimit_eq_false_iff]
    generalize 2 ^ 32 - 1 = bound
    split
    next long => simp [long, Nat.not_le.mpr long]
    next notLong => cases fits : fitsLimit cfg ws.length <;> simp [notLong, Nat.le_of_not_lt notLong]

/-! ## The launched program -/

/-- R129: the canonical list of a sequence of words holds the words, and 0 past them. -/
theorem cellsGet_cellsOfWords (ws : List Word) (first k : Nat) :
    cellsGet (cellsOfWords first ws) (first + k) = ws.getD k 0#32 := by
  induction ws generalizing first k with
  | nil => rfl
  | cons w ws ih =>
    have later : ∀ k, cellsGet (cellsOfWords (first + 1) ws) (first + (k + 1)) = ws.getD k 0#32 := fun k => by
      rw [← ih (first + 1) k, Nat.add_right_comm first 1 k, Nat.add_assoc]
    have notListed : cellsGet (cellsOfWords (first + 1) ws) first = unlistedWord :=
      cellsGet_of_forall_lt fun p hp => (mem_cellsOfWords hp).1
    simp only [cellsOfWords]
    split
    next isZero =>
      cases k with
      | zero => exact notListed.trans isZero.symm
      | succ k => rw [later, List.getD_cons_succ]
    next =>
      cases k with
      | zero => exact cellsGet_cons_self (first, w) _
      | succ k => rw [cellsGet_cons_of_ne _ (by simp), later, List.getD_cons_succ]

theorem Segment.get_ofWords (ws : List Word) (off : Word) : (Segment.ofWords ws).get off = ws.getD off.toNat 0#32 := by
  have := cellsGet_cellsOfWords ws 0 off.toNat
  rwa [Nat.zero_add] at this

/-- Settles O15: segment 0 of a launch is the loader's segment, whose length the bound of R133 keeps from wrapping. -/
theorem launchedProgramReadable : Obligations.LaunchedProgramReadable := by
  unfold Obligations.LaunchedProgramReadable
  intro cfg image input s booted
  obtain ⟨ws, loaded, short, -, rfl⟩ := boot_eq_ok.mp booted
  refine ⟨ws, loaded, fun off => ?_⟩
  have found : (launch cfg ws input).mem.segment? 0#32 = some (Segment.ofWords ws) := rfl
  simp only [Memory.read_of_segment? found, BitVec.lt_def, Segment.toNat_ofWords_len short, Segment.get_ofWords]

/-- Settles O13: a booted state is a launch (`boot_eq_ok`), whose fields are given by its definition. -/
theorem launchResetState : Obligations.LaunchResetState := by
  unfold Obligations.LaunchResetState
  refine ⟨boot_empty_eq_reset, fun cfg image input s booted => ?_⟩
  obtain ⟨ws, -, -, -, rfl⟩ := boot_eq_ok.mp booted
  exact ⟨rfl, rfl, rfl, rfl, rfl, rfl, rfl⟩

end Sys2Proof.Machine
end

section
/-! PROOF. What the host sees at the end of a run (spec/60_exceptions.md section 1, spec/40_sequencer.md). -/

namespace Sys2Proof.Machine

/-- Settles O58: each status has its own exit status, and a fault's is a successor. -/
theorem exitStatusZeroExactlyOnHalt : Obligations.ExitStatusZeroExactlyOnHalt := by
  unfold Obligations.ExitStatusZeroExactlyOnHalt
  intro s
  cases status : s.status with
  | running => simp [exitStatus, observation, status]
  | halted => simp [exitStatus, observation, hostView, status]
  | faulted r => simp [exitStatus, observation, hostView, exitCode, status]

end Sys2Proof.Machine
end
